-- ==== Sys2Proof/Word.lean ====
section
/-! DEFINITION. The word types of the block: bytes, and unsigned words of 32 and 64 bits (R7, R53).
All arithmetic on them is that of `BitVec`: it wraps modulo 2^N. -/
namespace Sys2Proof

/-- `u8` of R7. -/
abbrev Byte := BitVec 8

/-- `u32` of R7: a register, a command word, a lane of a 32-bit algorithm. -/
abbrev U32 := BitVec 32

/-- `u64` of R7: an accumulator, the seed, the length counter. -/
abbrev U64 := BitVec 64

end Sys2Proof
end

