-- ==== Sys2Proof/Syntax.lean ====
section
/-! DEFINITION. The commands of the block, one constructor per row of `spec/opcode_table.json` (R48). -/
namespace Sys2Proof

/-- A command the host writes to `CMD`. Only `CFG` carries an operand (R47): the field `ALGF`, bits [6:4] of the word. -/
inductive Instr where
  /-- `NOP` (R99) -/
  | nop
  /-- `CFG` (R100) with its raw 3-bit field `ALGF` -/
  | cfg (algf : BitVec 3)
  /-- `RESET` (R101) -/
  | reset
  /-- `UPDATE` (R60) -/
  | update
  /-- `FINALIZE` (R102) -/
  | finalize
  deriving DecidableEq, Repr

end Sys2Proof
end

