-- ==== Sys2Proof/WellFormed.lean ====
section
/-! DEFINITION. Which terms of `Instr` are commands of the block: the operand check of R48 and R50. -/
namespace Sys2Proof

/-- `CFG` takes the algorithm codes 0 to 3; 4 to 7 are reserved (R2, R50). The other commands have no operand (R47). -/
def Instr.wellFormed : Instr → Bool
  | .nop => true
  | .cfg algf => decide (algf.toNat < 4)
  | .reset => true
  | .update => true
  | .finalize => true

end Sys2Proof
end

