-- ==== Sys2Proof/Decode.lean ====
section
/-! DEFINITION. The decoder of R49, total on 32-bit words, and the encoder of R46 and R48. A command is one whole 32-bit
word, taken at the write to `CMD` (R44, R46), so the decoder takes that word and needs no length logic. -/
namespace Sys2Proof

/-- The verdict of the decoder (R49): a command, or `Illegal`, which the engine acts on (R111). -/
inductive Decoded where
  | command (i : Instr)
  | illegal
  deriving DecidableEq, Repr

/-- The field `ALGF`, bits [6:4] of a command word (R46). -/
def algField (w : U32) : BitVec 3 := w.extractLsb' 4 3

/-- `decode` of R49: the match and mask pairs of R48 in their order. -/
def decode (w : U32) : Decoded :=
  if w &&& 0xFFFFFFFF#32 = 0x00000000#32 then .command .nop
  else if w &&& 0xFFFFFFCF#32 = 0x00000001#32 then .command (.cfg (algField w))
  else if w &&& 0xFFFFFFFF#32 = 0x00000002#32 then .command .reset
  else if w &&& 0xFFFFFFFF#32 = 0x00000003#32 then .command .update
  else if w &&& 0xFFFFFFFF#32 = 0x00000004#32 then .command .finalize
  else .illegal

/-- The word of R46 with operation code `op` and algorithm field `algf`, every reserved bit 0. -/
def commandWord (op : BitVec 4) (algf : BitVec 3) : U32 := 0#25 ++ algf ++ op

/-- The command words of R48. On the ill-formed `CFG` it gives the word with that reserved code in `ALGF`. -/
def encode : Instr → U32
  | .nop => commandWord 0x0#4 0#3
  | .cfg algf => commandWord 0x1#4 algf
  | .reset => commandWord 0x2#4 0#3
  | .update => commandWord 0x3#4 0#3
  | .finalize => commandWord 0x4#4 0#3

/-- The command the decoder reads from the low `nbits` bits of `w`, the higher bits 0; none where it says `Illegal`. -/
def decodeTableWord (nbits w : Nat) : Option Instr :=
  match decode (BitVec.ofNat 32 (w % 2 ^ nbits)) with
  | .command i => some i
  | .illegal => none

end Sys2Proof
end

