-- ==== Sys2Proof/Machine/Bitops.lean ====
section
/-! DEFINITION. The bit-operation unit (`40_bitops.md`, R53 to R59) and the little-endian encodings of R98. A read past
the bytes it is given answers `none`, which the command that made it turns into a model fault (R57, U2). -/
namespace Sys2Proof.Machine

/-- `rotl32` (R55), called with `1 ≤ r ≤ 31` only. -/
def rotl32 (x : U32) (r : Nat) : U32 := (x <<< r) ||| (x >>> (32 - r))

/-- `rotl64` (R56), called with `1 ≤ r ≤ 63` only. -/
def rotl64 (x : U64) (r : Nat) : U64 := (x <<< r) ||| (x >>> (64 - r))

/-- The bytes `s[i..j)` of R7, where the sequence has them. -/
def slice (s : List Byte) (i j : Nat) : Option (List Byte) :=
  if i ≤ j ∧ j ≤ s.length then some ((s.drop i).take (j - i)) else none

/-- The word whose byte `k` (bits `[8k+7:8k]`) is byte `k` of the sequence, and whose bytes past the sequence are 0: the
one place where the block's byte order is decided for reads (R36). -/
def leWord (n : Nat) : List Byte → BitVec n
  | [] => 0
  | b :: bs => b.setWidth n ||| (leWord n bs <<< 8)

/-- `readLE32` (R57). -/
def readLE32 (s : List Byte) (o : Nat) : Option U32 := (slice s o (o + 4)).map (leWord 32)

/-- `readLE64` (R58). -/
def readLE64 (s : List Byte) (o : Nat) : Option U64 := (slice s o (o + 8)).map (leWord 64)

/-- `packLE` (R59), with its precondition `0 ≤ j - i ≤ N/8`. -/
def packLE (n : Nat) (s : List Byte) (i j : Nat) : Option (BitVec n) :=
  if j - i ≤ n / 8 then (slice s i j).map (leWord n) else none

/-- The `n` low bytes of a word, least significant first: the one place where the block's byte order is decided for
writes (R36). -/
def leBytes (n : Nat) {w : Nat} (x : BitVec w) : List Byte := (List.range n).map fun k => x.extractLsb' (8 * k) 8

/-- `LE32` (R98). -/
def le32 (x : U32) : List Byte := leBytes 4 x

/-- `LE64` (R98). -/
def le64 (x : U64) : List Byte := leBytes 8 x

end Sys2Proof.Machine
end

