-- ==== Sys2Proof/Config.lean ====
section
/-! DEFINITION. What an implementation of the block fixes (R1, R6): the identity, the sizes that are the same for every
block, and the parameters a model takes as arguments. -/
namespace Sys2Proof.Config

/-- The identity string of R1. -/
def identity : String := "NHasher-HB/v7"

/-- Bytes of the register area at `BASE` (R10, R33). -/
def registerArea : Nat := 0x100

/-- `BASE` and `DIN_SIZE` of R6, `OPEN` or defaulted there: a claim is stated for every value that meets `Params.wf`.
`N_INSTANCES` is the number of blocks of a `Platform` (`Machine/Platform.lean`). -/
structure Params where
  /-- host byte address of register offset 0x000 -/
  base : Nat
  /-- size in bytes of the data window `DIN` -/
  dinSize : Nat
  deriving DecidableEq, Repr

/-- The limits R6 puts on the parameters. -/
abbrev Params.wf (p : Params) : Prop :=
  p.base % 0x100 = 0 ∧ 32 ≤ p.dinSize ∧ p.dinSize ≤ 16777216 ∧ p.dinSize % 4 = 0

/-- The parameters of `State.reset`: the default `DIN_SIZE` of R6, and `BASE` 0.
DESIGN CHOICE (log entry 1), unsafe only for a claim that names this `BASE`: R6 leaves `BASE` open. -/
def Params.default : Params := { base := 0, dinSize := 4096 }

end Sys2Proof.Config
end

