-- ==== Sys2Proof/Machine/State.lean ====
section
/-! DEFINITION. The state of one block as plain data (sections 2 to 4 of `10_state.md`), the reasons a step can stop, and
the state after hardware reset (R32). -/
namespace Sys2Proof.Machine

/-- The four algorithms of R2. `ALG` is a 3-bit register that never holds 4 to 7 (R19), so it is a name, not bits. -/
inductive Alg where
  | xxh32
  | xxh64
  | mm3x64
  | mm3x86
  deriving DecidableEq, Repr

/-- The three faults the block raises (R108). The machine goes on after one, locked (R114). -/
inductive ArchFault where
  | bounds
  | misuse
  | illegal
  deriving DecidableEq, Repr

/-- The accumulator registers `ACC[0]` to `ACC[3]` (R22). -/
structure Accs where
  w0 : U64
  w1 : U64
  w2 : U64
  w3 : U64
  deriving DecidableEq, Repr

/-- What the outside can do at the port: the host's transactions (R8, R35), by host address, width in bytes and, for a
write, the value on the 32-bit bus; and the platform's reset signal (R120), asserted and released. -/
inductive PortEvent where
  | read (addr width : Nat)
  | write (addr width : Nat) (value : U32)
  | resetAssert
  | resetRelease
  deriving DecidableEq, Repr

/-- Why the machine stops: the model faults of R115, and the stuck state of U12. -/
inductive Fault where
  /-- Raised by a host read of the window and by `UPDATE` when a byte of the range was never written since hardware reset
  (R39, U8). Safe: hardware returns some value there. -/
  | unwrittenDin
  /-- Raised by `UPDATE` and `FINALIZE` when a precondition of R57 to R61 is not met (U2), which happens in no state that
  keeps `PCOUNT < BS(ALG)` (R25). Safe. -/
  | contract
  /-- Raised by a host transaction while hardware reset is asserted (R120, U12 'stuck'). Safe. -/
  | heldInReset
  deriving DecidableEq, Repr

/-- Transactions the model does not define. -/
inductive Refusal where
  /-- Would be raised by an instruction with no meaning yet; no arm of `exec` raises it. Safe. -/
  | notModelled (mnemonic : String)
  /-- Raised by a host access inside the block's space whose form R35 does not give (U9). Safe. -/
  | accessForm
  /-- Raised by a host access to an address the block does not decode (R34, U9). Safe. -/
  | notDecoded
  deriving DecidableEq, Repr

/-- The block. Each field names the element of `10_state.md` it holds; the last four are the model's own. -/
structure State where
  /-- `BASE` and `DIN_SIZE` (R6); no step writes them -/
  params : Config.Params
  /-- `SEED_LO` (R13) -/
  seedLo : U32
  /-- `SEED_HI` (R13) -/
  seedHi : U32
  /-- `ARG_ADDR` (R14) -/
  argAddr : U32
  /-- `ARG_LEN` (R14) -/
  argLen : U32
  /-- `ALG` (R19) -/
  alg : Alg
  /-- `ASEED` (R20) -/
  aseed : U64
  /-- `ACC[0..3]` (R22) -/
  acc : Accs
  /-- `TOTAL_LEN` (R23) -/
  totalLen : U64
  /-- `PBUF[0..31]` (R24) -/
  pbuf : Vector Byte 32
  /-- `PCOUNT` (R25) -/
  pcount : BitVec 6
  /-- `FINAL` (R26) -/
  final : Bool
  /-- `ERR` (R27): none, or the one recorded fault -/
  err : Option ArchFault
  /-- `ERR_CMD` (R18) -/
  errCmd : U32
  /-- `DIGEST_B[0..15]` (R28) -/
  digest : Vector Byte 16
  /-- `DIN` (R29): the bytes written since hardware reset, by offset; an unlisted byte has no value (R39) -/
  din : List Host.Cell
  /-- hardware reset is asserted (R120) -/
  inReset : Bool
  /-- the model-level fault record of R115, which no step clears -/
  faultRecord : Bool
  /-- the actions at the port still to come, oldest first (R131) -/
  script : List PortEvent
  /-- the values the host's reads have returned, oldest first (R131) -/
  reads : List U32
  deriving DecidableEq, Repr

/-- The values of R32 for a block with parameters `p`. The model's own fields (`inReset`, `faultRecord`, `script`, `reads`)
are released and empty: DESIGN CHOICE (log entries 2, 3 and 5). -/
def State.resetWith (p : Config.Params) : State where
  params := p
  seedLo := 0
  seedHi := 0
  argAddr := 0
  argLen := 0
  alg := .xxh32
  aseed := 0
  acc := { w0 := 0x24234428, w1 := 0x85EBCA77, w2 := 0x00000000, w3 := 0x61C8864F }
  totalLen := 0
  pbuf := Vector.replicate 32 0
  pcount := 0
  final := false
  err := none
  errCmd := 0
  digest := Vector.replicate 16 0
  din := []
  inReset := false
  faultRecord := false
  script := []
  reads := []

/-- The machine right after hardware reset (R32, R120), with the default parameters. -/
def State.reset : State := State.resetWith Config.Params.default

end Sys2Proof.Machine
end

