-- ==== Sys2Proof/Machine/Mm3x64.lean ====
section
/-! DEFINITION. The MurmurHash3 x64_128 mixer, ALG 2 (`43_murmur3_x64_128.md`, R73 to R79). -/
namespace Sys2Proof.Machine

/-- `C1` of R73. -/
def mm3x64C1 : U64 := 0x87C37B91114253D5
/-- `C2` of R73. -/
def mm3x64C2 : U64 := 0x4CF5AD432745937F

/-- Two 64-bit lanes in `ACC`; `ACC[2]` and `ACC[3]` are 0 (R22). -/
def accs64x2 (h1 h2 : U64) : Accs := { w0 := h1, w1 := h2, w2 := 0, w3 := 0 }

/-- `mm3x64_init` (R74). -/
def mm3x64Init (seed : U64) : Accs := accs64x2 seed seed

/-- `kmix64_1` (R75). -/
def kmix64Lane1 (k : U64) : U64 := rotl64 (k * mm3x64C1) 31 * mm3x64C2
/-- `kmix64_2` (R75). -/
def kmix64Lane2 (k : U64) : U64 := rotl64 (k * mm3x64C2) 33 * mm3x64C1

/-- One lane of the round of R76. -/
def mm3x64Lane (h k : U64) (r : Nat) (added const : U64) : U64 := (rotl64 (h ^^^ k) r + added) * 5 + const

/-- `mm3x64_block` (R76): lane 2 adds the `h1` that lane 1 has just updated. -/
def mm3x64Block (acc : Accs) (blk : List Byte) : Option Accs := do
  let k1 ← readLE64 blk 0
  let k2 ← readLE64 blk 8
  let h1 := mm3x64Lane acc.w0 (kmix64Lane1 k1) 27 acc.w1 0x52DCE729
  let h2 := mm3x64Lane acc.w1 (kmix64Lane2 k2) 31 h1 0x38495AB5
  return accs64x2 h1 h2

/-- The second lane of `mm3x64_tail` (R77): bytes 8 and up, where there are any. -/
def mm3x64TailLane2 (t : List Byte) (h : U64) : Option U64 :=
  if 8 < t.length then (packLE 64 t 8 t.length).map fun k => h ^^^ kmix64Lane2 k else some h

/-- The first lane of `mm3x64_tail` (R77): bytes 0 to 7, where there are any. -/
def mm3x64TailLane1 (t : List Byte) (h : U64) : Option U64 :=
  if 0 < t.length then (packLE 64 t 0 (min t.length 8)).map fun k => h ^^^ kmix64Lane1 k else some h

/-- `fmix64` (R78). -/
def fmix64 (k : U64) : U64 :=
  let k := k ^^^ (k >>> 33)
  let k := k * 0xFF51AFD7ED558CCD
  let k := k ^^^ (k >>> 33)
  let k := k * 0xC4CEB9FE1A85EC53
  k ^^^ (k >>> 33)

/-- `h1 <- h1 + h2 ; h2 <- h2 + h1` of R79. -/
def mm3x64Sum (h1 h2 : U64) : U64 × U64 := (h1 + h2, h2 + (h1 + h2))

/-- `mm3x64_final` (R79). -/
def mm3x64Final (acc : Accs) (totalLen : U64) (t : List Byte) : Option (List Byte) := do
  let h2 ← mm3x64TailLane2 t acc.w1
  let h1 ← mm3x64TailLane1 t acc.w0
  let (h1, h2) := mm3x64Sum (h1 ^^^ totalLen) (h2 ^^^ totalLen)
  let (h1, h2) := mm3x64Sum (fmix64 h1) (fmix64 h2)
  return le64 h1 ++ le64 h2

end Sys2Proof.Machine
end

