-- ==== Sys2Proof/Machine/Mm3x86.lean ====
section
/-! DEFINITION. The MurmurHash3 x86_128 mixer, ALG 3 (`42_murmur3_x86_128.md`, R66 to R72), and the 32-bit view of the
accumulators (R22) that it shares with XXH32. -/
namespace Sys2Proof.Machine

/-- Four 32-bit lanes in `ACC`, bits [63:32] of every word 0 (R22). -/
def accs32 (a b c d : U32) : Accs :=
  { w0 := a.setWidth 64, w1 := b.setWidth 64, w2 := c.setWidth 64, w3 := d.setWidth 64 }

/-- A 32-bit lane of `ACC`: its bits [31:0] (R22). -/
def lane32 (w : U64) : U32 := w.setWidth 32

/-- `c1` of R66. -/
def mm3x86C1 : U32 := 0x239B961B
/-- `c2` of R66. -/
def mm3x86C2 : U32 := 0xAB0E9789
/-- `c3` of R66. -/
def mm3x86C3 : U32 := 0x38B34AE5
/-- `c4` of R66. -/
def mm3x86C4 : U32 := 0xA1E38B93

/-- `mm3x86_init` (R67). -/
def mm3x86Init (seed : U32) : Accs := accs32 seed seed seed seed

/-- The key mix of R68 with the constants of one row of R66. -/
def kmix86 (c : U32) (r : Nat) (c' : U32) (k : U32) : U32 := rotl32 (k * c) r * c'

/-- `kmix86_1` (R68). -/
def kmix86Lane1 (k : U32) : U32 := kmix86 mm3x86C1 15 mm3x86C2 k
/-- `kmix86_2` (R68). -/
def kmix86Lane2 (k : U32) : U32 := kmix86 mm3x86C2 16 mm3x86C3 k
/-- `kmix86_3` (R68). -/
def kmix86Lane3 (k : U32) : U32 := kmix86 mm3x86C3 17 mm3x86C4 k
/-- `kmix86_4` (R68). -/
def kmix86Lane4 (k : U32) : U32 := kmix86 mm3x86C4 18 mm3x86C1 k

/-- One lane of the round of R69: `h ^ k`, rotated by `r`, plus the added lane, times 5, plus the lane constant. -/
def mm3x86Lane (h k : U32) (r : Nat) (added const : U32) : U32 := (rotl32 (h ^^^ k) r + added) * 5 + const

/-- `mm3x86_block` (R69): each lane reads the other lanes' current values. -/
def mm3x86Block (acc : Accs) (blk : List Byte) : Option Accs := do
  let k1 ← readLE32 blk 0
  let k2 ← readLE32 blk 4
  let k3 ← readLE32 blk 8
  let k4 ← readLE32 blk 12
  let h1 := mm3x86Lane (lane32 acc.w0) (kmix86Lane1 k1) 19 (lane32 acc.w1) 0x561CCD1B
  let h2 := mm3x86Lane (lane32 acc.w1) (kmix86Lane2 k2) 17 (lane32 acc.w2) 0x0BCAA747
  let h3 := mm3x86Lane (lane32 acc.w2) (kmix86Lane3 k3) 15 (lane32 acc.w3) 0x96CD1C35
  let h4 := mm3x86Lane (lane32 acc.w3) (kmix86Lane4 k4) 13 h1 0x32AC3B17
  return accs32 h1 h2 h3 h4

/-- One lane of `mm3x86_tail` (R70): the tail bytes from `lo` on, at most four, mixed into `h`; a lane with no byte is
not touched. -/
def mm3x86TailLane (kmix : U32 → U32) (lo : Nat) (t : List Byte) (h : U32) : Option U32 :=
  if lo < t.length then (packLE 32 t lo (min t.length (lo + 4))).map fun k => h ^^^ kmix k else some h

/-- `fmix32` (R71). -/
def fmix32 (h : U32) : U32 :=
  let h := h ^^^ (h >>> 16)
  let h := h * 0x85EBCA6B
  let h := h ^^^ (h >>> 13)
  let h := h * 0xC2B2AE35
  h ^^^ (h >>> 16)

/-- One summing round of R72 (`90_conflicts.md` C1): the three additions into `h1`, then `h1` into the other lanes. -/
def mm3x86Sum (h1 h2 h3 h4 : U32) : U32 × U32 × U32 × U32 :=
  let h1 := h1 + h2 + h3 + h4
  (h1, h2 + h1, h3 + h1, h4 + h1)

/-- `mm3x86_final` (R72). -/
def mm3x86Final (acc : Accs) (totalLen : U64) (t : List Byte) : Option (List Byte) := do
  let h1 ← mm3x86TailLane kmix86Lane1 0 t (lane32 acc.w0)
  let h2 ← mm3x86TailLane kmix86Lane2 4 t (lane32 acc.w1)
  let h3 ← mm3x86TailLane kmix86Lane3 8 t (lane32 acc.w2)
  let h4 ← mm3x86TailLane kmix86Lane4 12 t (lane32 acc.w3)
  let len := totalLen.setWidth 32
  let (h1, h2, h3, h4) := mm3x86Sum (h1 ^^^ len) (h2 ^^^ len) (h3 ^^^ len) (h4 ^^^ len)
  let (h1, h2, h3, h4) := mm3x86Sum (fmix32 h1) (fmix32 h2) (fmix32 h3) (fmix32 h4)
  return le32 h1 ++ le32 h2 ++ le32 h3 ++ le32 h4

end Sys2Proof.Machine
end

