-- ==== Sys2Proof/Machine/Operands.lean ====
section
/-! DEFINITION. The operands of the commands (R47): the algorithm codes and sizes of R2 and R19, the seed views of R13 and
R21, and the range of `UPDATE` (R14, R62). -/
namespace Sys2Proof.Machine

/-- The 3-bit code of an algorithm (R2). -/
def Alg.code : Alg → BitVec 3
  | .xxh32 => 0
  | .xxh64 => 1
  | .mm3x64 => 2
  | .mm3x86 => 3

/-- The algorithm a 3-bit code names; none for the reserved codes 4 to 7 (R2). -/
def Alg.ofCode (c : BitVec 3) : Option Alg :=
  match c.toNat with
  | 0 => some .xxh32
  | 1 => some .xxh64
  | 2 => some .mm3x64
  | 3 => some .mm3x86
  | _ => none

/-- `BS(ALG)`, bytes per mixing round (R2, R19). -/
def blockSize : Alg → Nat
  | .xxh32 => 16
  | .xxh64 => 32
  | .mm3x64 => 16
  | .mm3x86 => 16

/-- `DL(ALG)`, bytes of the digest (R2, R97). -/
def digestLength : Alg → Nat
  | .xxh32 => 4
  | .xxh64 => 8
  | .mm3x64 => 16
  | .mm3x86 => 16

/-- `SEED_ARG = SEED_HI ++bits SEED_LO` (R13). -/
def State.seedArg (s : State) : U64 := s.seedHi ++ s.seedLo

/-- The part of `ASEED` an algorithm reads (R21), zero-extended where it is `ASEED[31:0]`. -/
def seedPart (a : Alg) (aseed : U64) : U64 :=
  match a with
  | .xxh32 => (aseed.setWidth 32).setWidth 64
  | .xxh64 => aseed
  | .mm3x64 => (aseed.setWidth 32).setWidth 64
  | .mm3x86 => (aseed.setWidth 32).setWidth 64

/-- `zext_33(ARG_ADDR) + zext_33(ARG_LEN)` of R62. -/
def State.rangeEnd (s : State) : BitVec 33 := s.argAddr.setWidth 33 + s.argLen.setWidth 33

/-- The range check of R62: the range of `UPDATE` leaves `DIN`. -/
def State.outOfRange (s : State) : Bool := decide (s.params.dinSize < s.rangeEnd.toNat)

/-- `PBUF[0..PCOUNT)`: the pending bytes (R24), the tail `T` at `FINALIZE` (R97). -/
def State.pending (s : State) : List Byte := s.pbuf.toList.take s.pcount.toNat

end Sys2Proof.Machine
end

