-- ==== Sys2Proof/Machine/Xxh32.lean ====
section
/-! DEFINITION. The xxHash32 mixer, ALG 0 (`44_xxhash32.md`, R80 to R85). -/
namespace Sys2Proof.Machine

/-- `P1` of R80. -/
def xxh32P1 : U32 := 0x9E3779B1
/-- `P2` of R80. -/
def xxh32P2 : U32 := 0x85EBCA77
/-- `P3` of R80. -/
def xxh32P3 : U32 := 0xC2B2AE3D
/-- `P4` of R80. -/
def xxh32P4 : U32 := 0x27D4EB2F
/-- `P5` of R80. -/
def xxh32P5 : U32 := 0x165667B1

/-- `xxh32_init` (R81). -/
def xxh32Init (seed : U32) : Accs := accs32 (seed + xxh32P1 + xxh32P2) (seed + xxh32P2) seed (seed - xxh32P1)

/-- `xxh32_round` (R82). -/
def xxh32Round (v w : U32) : U32 := rotl32 (v + w * xxh32P2) 13 * xxh32P1

/-- `xxh32_block` (R83): word `j` of the block goes to lane `j+1`. -/
def xxh32Block (acc : Accs) (blk : List Byte) : Option Accs := do
  let w1 ← readLE32 blk 0
  let w2 ← readLE32 blk 4
  let w3 ← readLE32 blk 8
  let w4 ← readLE32 blk 12
  return accs32 (xxh32Round (lane32 acc.w0) w1) (xxh32Round (lane32 acc.w1) w2)
    (xxh32Round (lane32 acc.w2) w3) (xxh32Round (lane32 acc.w3) w4)

/-- `xxh32_avalanche` (R84). -/
def xxh32Avalanche (h : U32) : U32 :=
  let h := h ^^^ (h >>> 15)
  let h := h * xxh32P2
  let h := h ^^^ (h >>> 13)
  let h := h * xxh32P3
  h ^^^ (h >>> 16)

/-- The tail step of R85 for one 4-byte group. -/
def xxh32Group (h w : U32) : U32 := rotl32 (h + w * xxh32P3) 17 * xxh32P4

/-- The tail step of R85 for one single byte. -/
def xxh32Byte (h : U32) (b : Byte) : U32 := rotl32 (h + b.setWidth 32 * xxh32P5) 11 * xxh32P1

/-- `while p + 4 <= len(T)` of R85, with fuel: the new `h`, and `p` where the loop ends. -/
def xxh32Groups (t : List Byte) : Nat → Nat → U32 → Option (U32 × Nat)
  | 0, p, h => some (h, p)
  | fuel + 1, p, h =>
    if p + 4 ≤ t.length then (readLE32 t p).bind fun w => xxh32Groups t fuel (p + 4) (xxh32Group h w) else some (h, p)

/-- `h` before the tail in R85: the rotated lanes summed, or `v3 + P5` for a short stream, plus the length. -/
def xxh32Start (acc : Accs) (totalLen : U64) : U32 :=
  (if 16 ≤ totalLen.toNat then
    rotl32 (lane32 acc.w0) 1 + rotl32 (lane32 acc.w1) 7 + rotl32 (lane32 acc.w2) 12 + rotl32 (lane32 acc.w3) 18
  else lane32 acc.w2 + xxh32P5) + totalLen.setWidth 32

/-- `xxh32_final` (R85). The byte loop runs over the bytes the group loop leaves. -/
def xxh32Final (acc : Accs) (totalLen : U64) (t : List Byte) : Option (List Byte) := do
  let (h, p) ← xxh32Groups t t.length 0 (xxh32Start acc totalLen)
  return le32 (xxh32Avalanche ((t.drop p).foldl xxh32Byte h))

end Sys2Proof.Machine
end

