-- ==== Sys2Proof/Machine/Xxh64.lean ====
section
/-! DEFINITION. The xxHash64 mixer, ALG 1 (`45_xxhash64.md`, R86 to R95). -/
namespace Sys2Proof.Machine

/-- `P1` of R86. -/
def xxh64P1 : U64 := 0x9E3779B185EBCA87
/-- `P2` of R86. -/
def xxh64P2 : U64 := 0xC2B2AE3D27D4EB4F
/-- `P3` of R86. -/
def xxh64P3 : U64 := 0x165667B19E3779F9
/-- `P4` of R86. -/
def xxh64P4 : U64 := 0x85EBCA77C2B2AE63
/-- `P5` of R86. -/
def xxh64P5 : U64 := 0x27D4EB2F165667C5

/-- `xxh64_init` (R87). -/
def xxh64Init (seed : U64) : Accs :=
  { w0 := seed + xxh64P1 + xxh64P2, w1 := seed + xxh64P2, w2 := seed, w3 := seed - xxh64P1 }

/-- `xxh64_round` (R88). -/
def xxh64Round (v w : U64) : U64 := rotl64 (v + w * xxh64P2) 31 * xxh64P1

/-- `xxh64_merge` (R89). -/
def xxh64Merge (h v : U64) : U64 := (h ^^^ xxh64Round 0 v) * xxh64P1 + xxh64P4

/-- `xxh64_block` (R90): 8-byte word `j` of the block goes to lane `j+1`. -/
def xxh64Block (acc : Accs) (blk : List Byte) : Option Accs := do
  let w1 ← readLE64 blk 0
  let w2 ← readLE64 blk 8
  let w3 ← readLE64 blk 16
  let w4 ← readLE64 blk 24
  return { w0 := xxh64Round acc.w0 w1, w1 := xxh64Round acc.w1 w2, w2 := xxh64Round acc.w2 w3, w3 := xxh64Round acc.w3 w4 }

/-- The tail step for one 8-byte group (R91). -/
def xxh64Group8 (h w : U64) : U64 := rotl64 (h ^^^ xxh64Round 0 w) 27 * xxh64P1 + xxh64P4

/-- The tail step for one 4-byte group (R92), the block's only mixed-width operation (R53). -/
def xxh64Group4 (h : U64) (w : U32) : U64 := rotl64 (h ^^^ (w.setWidth 64 * xxh64P1)) 23 * xxh64P2 + xxh64P3

/-- The tail step for one single byte (R93). -/
def xxh64Byte (h : U64) (b : Byte) : U64 := rotl64 (h ^^^ (b.setWidth 64 * xxh64P5)) 11 * xxh64P1

/-- `xxh64_avalanche` (R94). -/
def xxh64Avalanche (h : U64) : U64 :=
  let h := h ^^^ (h >>> 33)
  let h := h * xxh64P2
  let h := h ^^^ (h >>> 29)
  let h := h * xxh64P3
  h ^^^ (h >>> 32)

/-- `while p + 8 <= len(T)` of R95, with fuel: the new `h`, and `p` where the loop ends. -/
def xxh64Groups (t : List Byte) : Nat → Nat → U64 → Option (U64 × Nat)
  | 0, p, h => some (h, p)
  | fuel + 1, p, h =>
    if p + 8 ≤ t.length then (readLE64 t p).bind fun w => xxh64Groups t fuel (p + 8) (xxh64Group8 h w) else some (h, p)

/-- `if p + 4 <= len(T)` of R95: at most one 4-byte group. -/
def xxh64Half (t : List Byte) (p : Nat) (h : U64) : Option (U64 × Nat) :=
  if p + 4 ≤ t.length then (readLE32 t p).map fun w => (xxh64Group4 h w, p + 4) else some (h, p)

/-- The four rotated lanes summed, then the four merge rounds in lane order (R95). -/
def xxh64Converge (acc : Accs) : U64 :=
  let h := rotl64 acc.w0 1 + rotl64 acc.w1 7 + rotl64 acc.w2 12 + rotl64 acc.w3 18
  xxh64Merge (xxh64Merge (xxh64Merge (xxh64Merge h acc.w0) acc.w1) acc.w2) acc.w3

/-- `h` before the tail in R95: the merged lanes, or `v3 + P5` for a short stream, plus the length. -/
def xxh64Start (acc : Accs) (totalLen : U64) : U64 :=
  (if 32 ≤ totalLen.toNat then xxh64Converge acc else acc.w2 + xxh64P5) + totalLen

/-- `xxh64_final` (R95). The byte loop runs over the bytes the group steps leave. -/
def xxh64Final (acc : Accs) (totalLen : U64) (t : List Byte) : Option (List Byte) := do
  let (h, p) ← xxh64Groups t t.length 0 (xxh64Start acc totalLen)
  let (h, p) ← xxh64Half t p h
  return le64 (xxh64Avalanche ((t.drop p).foldl xxh64Byte h))

end Sys2Proof.Machine
end

