-- ==== Sys2Proof/Machine/Engine.lean ====
section
/-! DEFINITION. The dispatch of the mixers by algorithm: `MIX` (R61), `INIT` (R96) and `FIN` (R97). A precondition that is
not met answers `none` (R57). -/
namespace Sys2Proof.Machine

/-- `INIT(ALG, ASEED)` (R96), each algorithm on its part of the seed (R21). -/
def initAccs (a : Alg) (aseed : U64) : Accs :=
  match a with
  | .xxh32 => xxh32Init ((seedPart .xxh32 aseed).setWidth 32)
  | .xxh64 => xxh64Init (seedPart .xxh64 aseed)
  | .mm3x64 => mm3x64Init (seedPart .mm3x64 aseed)
  | .mm3x86 => mm3x86Init ((seedPart .mm3x86 aseed).setWidth 32)

/-- The block mixer of an algorithm (the table of R61). -/
def mixer : Alg → Accs → List Byte → Option Accs
  | .xxh32 => xxh32Block
  | .xxh64 => xxh64Block
  | .mm3x64 => mm3x64Block
  | .mm3x86 => mm3x86Block

/-- `MIX(ALG, ACC, blk)` (R61), with its precondition `len(blk) = BS(ALG)`. -/
def mix (a : Alg) (acc : Accs) (blk : List Byte) : Option Accs :=
  if blk.length = blockSize a then mixer a acc blk else none

/-- The finalization of an algorithm (the table of R97). -/
def finalizer : Alg → Accs → U64 → List Byte → Option (List Byte)
  | .xxh32 => xxh32Final
  | .xxh64 => xxh64Final
  | .mm3x64 => mm3x64Final
  | .mm3x86 => mm3x86Final

/-- `FIN(ALG, ACC, TOTAL_LEN, T)` (R97), with the precondition `len(T) < BS(ALG)` of R70, R77, R85 and R95. -/
def fin (a : Alg) (acc : Accs) (totalLen : U64) (t : List Byte) : Option (List Byte) :=
  if t.length < blockSize a then finalizer a acc totalLen t else none

end Sys2Proof.Machine
end

