-- ==== Sys2Proof/Machine/Flags.lean ====
section
/-! DEFINITION. The flags: `ERR` and its codes (R27, R108), the lock (R12, R114), and `STATUS` (R12). -/
namespace Sys2Proof.Machine

/-- The one-hot code of a fault in `STATUS[3:1]` (R108). -/
def ArchFault.code : ArchFault → BitVec 3
  | .bounds => 0b001
  | .misuse => 0b010
  | .illegal => 0b100

/-- `ERR`, the 3-bit fault record (R27). -/
def State.errCode (s : State) : BitVec 3 :=
  match s.err with
  | none => 0
  | some f => f.code

/-- The block is locked when `ERR != 0` (R12, R114). -/
def State.locked (s : State) : Bool := s.err.isSome

/-- `STATUS`, computed on every read (R12). -/
def State.status (s : State) : U32 :=
  0#18 ++ s.pcount ++ 0#1 ++ s.alg.code ++ s.errCode ++ BitVec.ofBool s.final

end Sys2Proof.Machine
end

