-- ==== Sys2Proof/Machine/Ops.lean ====
section
/-! DEFINITION. The named operations the commands share: the data window `DIN` (R37 to R39), the byte files `PBUF` and
`DIGEST_B` (R24, R28), raising a fault (R112) and the soft reset that releases it (R101, R114). -/
namespace Sys2Proof.Machine

/-- The window as data: offsets strictly rising, so that equal windows are equal lists. An unlisted byte has no value
(R39), so no entry can equal what it reads as. -/
abbrev dinWf (m : List Host.Cell) : Prop := m.Pairwise fun x y => x.1 < y.1

/-- The byte at a `DIN` offset; none where the host has not written it since hardware reset (R39). -/
def dinByte : List Host.Cell → Nat → Option Byte
  | [], _ => none
  | (b, v) :: m, a => if a = b then some v else dinByte m a

/-- `DIN[a] <- v`, keeping the list sorted. -/
def dinSet : List Host.Cell → Nat → Byte → List Host.Cell
  | [], a, v => [(a, v)]
  | (b, x) :: m, a, v => if a < b then (a, v) :: (b, x) :: m else if a = b then (a, v) :: m else (b, x) :: dinSet m a v

/-- The bytes `vs` written from offset `a` up. -/
def dinStore (m : List Host.Cell) (a : Nat) : List Byte → List Host.Cell
  | [] => m
  | v :: vs => dinStore (dinSet m a v) (a + 1) vs

/-- `MemWrite(a, n, v)` (R37): byte `k` is `v[8k+7:8k]` (R36). -/
def memWrite (m : List Host.Cell) (a n : Nat) (v : U32) : List Host.Cell := dinStore m a (leBytes n v)

/-- `MemRead(a, n)` (R38): the bytes `DIN[a .. a+n)`, where all of them have been written (R39). -/
def memRead (m : List Host.Cell) (a : Nat) : Nat → Option (List Byte)
  | 0 => some []
  | n + 1 => (dinByte m a).bind fun b => (memRead m (a + 1) n).map fun bs => b :: bs

/-- A byte file with `bs` written from index `i` up; bytes past its end are dropped. -/
def overwrite {n : Nat} (file : Vector Byte n) (i : Nat) (bs : List Byte) : Vector Byte n :=
  Vector.ofFn fun k =>
    if i ≤ k.val ∧ k.val < i + bs.length then bs.getD (k.val - i) 0 else file[k.val]

/-- `d ++ (16 - DL(ALG)) zero bytes` (R102). -/
def digestFile (d : List Byte) : Vector Byte 16 := overwrite (Vector.replicate 16 0) 0 d

/-- `raise F(w)` (R112): `ERR` and `ERR_CMD`, and the model's record of R115; no other state changes, and there is no
vector, handler or saved context. -/
def State.raise (s : State) (f : ArchFault) (w : U32) : State :=
  { s with err := some f, errCmd := w, faultRecord := true }

/-- What an illegal word does (R107, R111): dropped while locked, else `IllegalCommand`. -/
def State.raiseIllegal (s : State) (w : U32) : State := if s.locked then s else s.raise .illegal w

/-- `SOFT_RESET` (R101): the post-construction state, which also releases the lock (R114). -/
def State.softReset (s : State) : State :=
  { s with
    acc := initAccs s.alg s.aseed
    totalLen := 0
    pbuf := Vector.replicate 32 0
    pcount := 0
    final := false
    digest := Vector.replicate 16 0
    err := none
    errCmd := 0 }

end Sys2Proof.Machine
end

