-- ==== Sys2Proof/Machine/Lifecycle.lean ====
section
/-! DEFINITION. The lifecycle commands `NOP`, `CFG`, `RESET` and `FINALIZE` (`46_commands.md`, R99 to R103). -/
namespace Sys2Proof.Machine

/-- `NOP` (R99). -/
def execNop (s : State) : Host.Outcome State Fault Refusal := .next s

/-- `CFG` (R100). The reserved codes 4 to 7 are never decoded (R50); on such a term the block does what it does with the
illegal word that the term encodes to (R111). DEDUCED (log entry 8), safe. -/
def execCfg (algf : BitVec 3) (s : State) : Host.Outcome State Fault Refusal :=
  match Alg.ofCode algf with
  | some a => .next ({ s with alg := a, aseed := s.seedArg } : State).softReset
  | none => .next (s.raiseIllegal (encode (.cfg algf)))

/-- `RESET` (R101). -/
def execReset (s : State) : Host.Outcome State Fault Refusal := .next s.softReset

/-- `FINALIZE` (R102, R103). -/
def execFinalize (s : State) : Host.Outcome State Fault Refusal :=
  if s.locked then .next s
  else if s.final then .next s
  else
    match fin s.alg s.acc s.totalLen s.pending with
    | none => .fault .contract
    | some d => .next { s with digest := digestFile d, final := true }

end Sys2Proof.Machine
end

