-- ==== Sys2Proof/Machine/Streaming.lean ====
section
/-! DEFINITION. The streaming partial-block buffer and `UPDATE` (`41_streaming.md`, R60 to R65). -/
namespace Sys2Proof.Machine

/-- Step 3 of R60, `while n - off >= bs`, with fuel: the accumulators, and the bytes that are left. -/
def mixBlocks (a : Alg) : Nat → Accs → List Byte → Option (Accs × List Byte)
  | 0, acc, rest => some (acc, rest)
  | fuel + 1, acc, rest =>
    if blockSize a ≤ rest.length then
      (mix a acc (rest.take (blockSize a))).bind fun acc => mixBlocks a fuel acc (rest.drop (blockSize a))
    else some (acc, rest)

/-- Step 2 of R60: the pending bytes filled up to one block from the head of `b` and mixed; the bytes of `b` that are left. -/
def mixPending (s : State) (b : List Byte) : Option (Accs × List Byte) :=
  let need := blockSize s.alg - s.pcount.toNat
  if 0 < s.pcount.toNat then (mix s.alg s.acc (s.pending ++ b.take need)).map fun acc => (acc, b.drop need)
  else some (s.acc, b)

/-- Steps 1 to 4 of R60 on the bytes `b`. R25 says `PCOUNT < BS(ALG)`; in a state where it is not, the answer is `none`. -/
def absorb (s : State) (b : List Byte) : Option State :=
  if blockSize s.alg ≤ s.pcount.toNat then none
  else if s.pcount.toNat + b.length < blockSize s.alg then
    some { s with
      pbuf := overwrite s.pbuf s.pcount.toNat b
      pcount := BitVec.ofNat 6 (s.pcount.toNat + b.length) }
  else
    (mixPending s b).bind fun (acc, rest) =>
      (mixBlocks s.alg rest.length acc rest).map fun (acc, tail) =>
        { s with acc := acc, pbuf := overwrite s.pbuf 0 tail, pcount := BitVec.ofNat 6 tail.length }

/-- `TOTAL_LEN <- TOTAL_LEN + zext_64(n)` of R60 and R63. -/
def State.addLength (s : State) (n : U32) : State := { s with totalLen := s.totalLen + n.setWidth 64 }

/-- `UPDATE` (R60), its checks in the order of R113. -/
def execUpdate (s : State) : Host.Outcome State Fault Refusal :=
  if s.locked then .next s
  else if s.final then .next (s.raise .misuse (encode .update))
  else if s.outOfRange then .next (s.raise .bounds (encode .update))
  else if s.argLen.toNat = 0 then .next s
  else
    match memRead s.din s.argAddr.toNat s.argLen.toNat with
    | none => .fault .unwrittenDin
    | some b =>
      match absorb (s.addLength s.argLen) b with
      | none => .fault .contract
      | some s' => .next s'

end Sys2Proof.Machine
end

