-- ==== Sys2Proof/Machine/Registers.lean ====
section
/-! DEFINITION. The host-visible register map (R10 to R18): names, offsets, reads, and the writes of the plain RW registers.
The write to `CMD` runs a command and stands in `Machine/Port.lean`. -/
namespace Sys2Proof.Machine

/-- The registers of R10. -/
inductive Reg where
  | cmd
  | status
  | seedLo
  | seedHi
  | argAddr
  | argLen
  | lenLo
  | lenHi
  | digest0
  | digest1
  | digest2
  | digest3
  | aseedLo
  | aseedHi
  | errCmd
  deriving DecidableEq, Repr

/-- The offset of a register in the register area (R10). -/
def Reg.offset : Reg → Nat
  | .cmd => 0x000
  | .status => 0x004
  | .seedLo => 0x008
  | .seedHi => 0x00C
  | .argAddr => 0x010
  | .argLen => 0x014
  | .lenLo => 0x018
  | .lenHi => 0x01C
  | .digest0 => 0x020
  | .digest1 => 0x024
  | .digest2 => 0x028
  | .digest3 => 0x02C
  | .aseedLo => 0x030
  | .aseedHi => 0x034
  | .errCmd => 0x038

/-- The register at an aligned offset of the register area; none at the reserved offsets 0x03C to 0x0FC (R10). -/
def Reg.ofOffset (o : Nat) : Option Reg :=
  match o with
  | 0x000 => some .cmd
  | 0x004 => some .status
  | 0x008 => some .seedLo
  | 0x00C => some .seedHi
  | 0x010 => some .argAddr
  | 0x014 => some .argLen
  | 0x018 => some .lenLo
  | 0x01C => some .lenHi
  | 0x020 => some .digest0
  | 0x024 => some .digest1
  | 0x028 => some .digest2
  | 0x02C => some .digest3
  | 0x030 => some .aseedLo
  | 0x034 => some .aseedHi
  | 0x038 => some .errCmd
  | _ => none

/-- `readLE32(DIGEST_B, 4j)`: the register `DIGESTj` (R10, R16). -/
def State.digestWord (s : State) (j : Nat) : U32 := leWord 32 ((s.digest.toList.drop (4 * j)).take 4)

/-- What a host read of a register returns (R11 to R18); `CMD` reads 0. -/
def State.readReg (s : State) : Reg → U32
  | .cmd => 0
  | .status => s.status
  | .seedLo => s.seedLo
  | .seedHi => s.seedHi
  | .argAddr => s.argAddr
  | .argLen => s.argLen
  | .lenLo => s.totalLen.extractLsb' 0 32
  | .lenHi => s.totalLen.extractLsb' 32 32
  | .digest0 => s.digestWord 0
  | .digest1 => s.digestWord 1
  | .digest2 => s.digestWord 2
  | .digest3 => s.digestWord 3
  | .aseedLo => s.aseed.extractLsb' 0 32
  | .aseedHi => s.aseed.extractLsb' 32 32
  | .errCmd => s.errCmd

/-- What a host read at an aligned offset returns: a reserved offset reads 0 (R11). -/
def State.readOffset (s : State) (o : Nat) : U32 :=
  match Reg.ofOffset o with
  | some r => s.readReg r
  | none => 0

/-- A host write to a register other than `CMD`: the four RW registers take the value, locked or not (R13, R14); a write to
an RO register has no effect (R11). -/
def State.writeReg (s : State) (r : Reg) (v : U32) : State :=
  match r with
  | .seedLo => { s with seedLo := v }
  | .seedHi => { s with seedHi := v }
  | .argAddr => { s with argAddr := v }
  | .argLen => { s with argLen := v }
  | .cmd => s
  | .status => s
  | .lenLo => s
  | .lenHi => s
  | .digest0 => s
  | .digest1 => s
  | .digest2 => s
  | .digest3 => s
  | .aseedLo => s
  | .aseedHi => s
  | .errCmd => s

end Sys2Proof.Machine
end

