-- ==== Sys2Proof/Machine/Port.lean ====
section
/-! DEFINITION. The host port: which transactions there are (R33 to R35), command issue (R107), what each transaction does
(R8, R11, R36 to R42), and hardware reset (R120). -/
namespace Sys2Proof.Machine

/-- What a transaction of R35 acts on: an aligned register offset, or `n` bytes of the window from offset `a`. -/
inductive Target where
  | register (offset : Nat)
  | window (a n : Nat)
  deriving DecidableEq, Repr

/-- The addresses the block decodes (R33, R34). -/
def decodes (p : Config.Params) (addr : Nat) : Bool :=
  decide (p.base ≤ addr ∧ addr < p.base + Config.registerArea + p.dinSize)

/-- The forms of R35 at offset `o` of the block: an aligned 4-byte register access, or 1, 2 or 4 bytes inside the window. -/
def locateOffset (p : Config.Params) (o width : Nat) : Except Refusal Target :=
  if o < Config.registerArea then
    if width = 4 ∧ o % 4 = 0 then .ok (.register o) else .error .accessForm
  else
    if (width = 1 ∨ width = 2 ∨ width = 4) ∧ o - Config.registerArea + width ≤ p.dinSize then
      .ok (.window (o - Config.registerArea) width)
    else .error .accessForm

/-- What a host access is to the block, and by name why any other transaction is refused (R34, R35, U9). -/
def locate (p : Config.Params) (addr width : Nat) : Except Refusal Target :=
  if decodes p addr then locateOffset p (addr - p.base) width else .error .notDecoded

/-- A host write of `w` to `CMD` (R107). The lock is tested in each command's own meaning, as R107 says it may be. -/
def issue (w : U32) (s : State) : Host.Outcome State Fault Refusal :=
  match decode w with
  | .command i => exec i s
  | .illegal => .next (s.raiseIllegal w)

/-- A read's value, given to the host (R131); a read has no other effect (R11, R41). -/
def State.returned (s : State) (v : U32) : State := { s with reads := s.reads ++ [v] }

/-- A host read (R11, R38). A value narrower than the bus is zero-extended to it. -/
def hostRead (addr width : Nat) (s : State) : Host.Outcome State Fault Refusal :=
  match locate s.params addr width with
  | .error r => .refused r
  | .ok (.register o) => .next (s.returned (s.readOffset o))
  | .ok (.window a n) =>
    match memRead s.din a n with
    | none => .fault .unwrittenDin
    | some bs => .next (s.returned (leWord 32 bs))

/-- A host write (R11, R37): to `CMD` it runs the command, to an RO register or a reserved offset it does nothing. -/
def hostWrite (addr width : Nat) (v : U32) (s : State) : Host.Outcome State Fault Refusal :=
  match locate s.params addr width with
  | .error r => .refused r
  | .ok (.register o) =>
    match Reg.ofOffset o with
    | some .cmd => issue v s
    | some r => .next (s.writeReg r v)
    | none => .next s
  | .ok (.window a n) => .next { s with din := memWrite s.din a n v }

/-- Hardware reset (R32, R120): every state element at its reset value, `DIN` unwritten (R39). The parameters stay, the
fault record stays (R115: no step clears it), and so do the actions and values of the run. -/
def State.hardwareReset (s : State) : State :=
  { State.resetWith s.params with
    inReset := true
    faultRecord := s.faultRecord
    script := s.script
    reads := s.reads }

/-- One action at the port. While hardware reset is asserted the block takes no transaction (R120, U12 'stuck'). -/
def portEvent (e : PortEvent) (s : State) : Host.Outcome State Fault Refusal :=
  match e with
  | .read addr width => if s.inReset then .fault .heldInReset else hostRead addr width s
  | .write addr width v => if s.inReset then .fault .heldInReset else hostWrite addr width v s
  | .resetAssert => .next s.hardwareReset
  | .resetRelease => .next { s with inReset := false }

/-- Actions at the port one after another, up to the first that stops. -/
def portEvents : List PortEvent → State → Host.Outcome State Fault Refusal
  | [], s => .next s
  | e :: es, s =>
    match portEvent e s with
    | .next s' => portEvents es s'
    | .fault r => .fault r
    | .refused r => .refused r

/-- One step of a block (R8): the next action of the host's sequence. With none left the block is quiescent (R131): it
never takes a step on its own (R9). -/
def takeNext (s : State) : Host.Outcome State Fault Refusal :=
  match s.script with
  | [] => .next s
  | e :: rest => portEvent e { s with script := rest }

/-- `s` with a write of the word `w` to `CMD` as its next action, hardware reset released. -/
def State.withCommand (s : State) (w : U32) : State :=
  { s with
    inReset := false
    script := .write (s.params.base + Reg.offset .cmd) 4 w :: s.script }

end Sys2Proof.Machine
end

