-- ==== Sys2Proof/Machine/Step.lean ====
section
/-! DEFINITION. The step of the block: one action at the port (R8). -/
namespace Sys2Proof.Machine

/-- One step (R8, R9). -/
def step (s : State) : Host.Outcome State Fault Refusal := takeNext s

/-- `s` with the command whose low `nbits` bits are those of `w` as the word of its next transaction, a write to `CMD`
(log entry 2: the block fetches nothing, R31; a program is the host's sequence of transactions). -/
def State.withFetchWord (s : State) (nbits w : Nat) : State := s.withCommand (BitVec.ofNat 32 (w % 2 ^ nbits))

end Sys2Proof.Machine
end

