-- ==== Sys2Proof/Machine/Platform.lean ====
section
/-! DEFINITION. A platform of `N_INSTANCES` blocks (R6, R119): each has its own parameters, registers and window, no state is
shared, and a transaction goes to the block that decodes its address. The order in which a platform's masters reach
the ports is the platform's (R42, R123). -/
namespace Sys2Proof.Machine

/-- The blocks of a platform; `N_INSTANCES` is their number (R6). -/
structure Platform where
  blocks : List State
  deriving DecidableEq, Repr

/-- Two blocks decode no common address. -/
abbrev disjoint (p q : Config.Params) : Prop :=
  p.base + Config.registerArea + p.dinSize ≤ q.base ∨ q.base + Config.registerArea + q.dinSize ≤ p.base

/-- At least one block (R6), each with legal parameters, at addresses of its own (R119). -/
abbrev Platform.wf (m : Platform) : Prop :=
  m.blocks ≠ [] ∧ (∀ s ∈ m.blocks, s.params.wf) ∧ m.blocks.Pairwise fun s t => disjoint s.params t.params

/-- Instance `k` takes one action at its port; the others are not touched (R119). -/
def Platform.act (m : Platform) (k : Nat) (e : PortEvent) : Host.Outcome Platform Fault Refusal :=
  match m.blocks[k]? with
  | none => .refused .notDecoded
  | some s =>
    match portEvent e s with
    | .next s' => .next { blocks := m.blocks.set k s' }
    | .fault r => .fault r
    | .refused r => .refused r

/-- The instance that decodes a host address, by its place. -/
def Platform.owner (m : Platform) (addr : Nat) : Option Nat := m.blocks.findIdx? fun s => decodes s.params addr

/-- A host transaction on the platform's bus: taken by the instance that decodes its address. -/
def Platform.access (m : Platform) (addr : Nat) (e : PortEvent) : Host.Outcome Platform Fault Refusal :=
  match m.owner addr with
  | none => .refused .notDecoded
  | some k => m.act k e

/-- A host read on the platform's bus. -/
def Platform.hostRead (m : Platform) (addr width : Nat) : Host.Outcome Platform Fault Refusal :=
  m.access addr (.read addr width)

/-- A host write on the platform's bus. -/
def Platform.hostWrite (m : Platform) (addr width : Nat) (v : U32) : Host.Outcome Platform Fault Refusal :=
  m.access addr (.write addr width v)

end Sys2Proof.Machine
end

