-- ==== Sys2Proof/Machine/Script.lean ====
section
/-! DEFINITION. Command scripts (R51) and their pseudo-instructions (R52), as data: each line is the sequence of host
transactions it stands for. -/
namespace Sys2Proof.Machine

/-- The lines of R51 and R52. `digest` names the algorithm whose digest it reads, which fixes how many registers that is. -/
inductive ScriptLine where
  | nop
  | cfg (alg : BitVec 3)
  | reset
  | update
  | finalize
  | cmd (w : U32)
  | wr (r : Reg) (v : U32)
  | rd (r : Reg)
  | wrb (a : Nat) (v : U32)
  | wrh (a : Nat) (v : U32)
  | wrw (a : Nat) (v : U32)
  | rdb (a : Nat)
  | rdh (a : Nat)
  | rdw (a : Nat)
  | seed (v : U64)
  | cfgs (alg : BitVec 3) (v : U64)
  | load (a : Nat) (bytes : List Byte)
  | upd (a n : U32)
  /-- DESIGN CHOICE (log entry 10), safe: the line names its algorithm -/
  | digest (alg : Alg)
  /-- DESIGN CHOICE (log entry 11), safe: one of the four algorithms; R52 does not say what `digest` reads for a code 4 to 7 -/
  | hash (alg : Alg) (v : U64) (a n : U32)
  deriving DecidableEq, Repr

/-- A 32-bit register write (R51 `wr`). -/
def writeTo (p : Config.Params) (r : Reg) (v : U32) : PortEvent := .write (p.base + r.offset) 4 v

/-- A 32-bit register read (R51 `rd`). -/
def readFrom (p : Config.Params) (r : Reg) : PortEvent := .read (p.base + r.offset) 4

/-- The host address of a window offset (R33). -/
def windowAddr (p : Config.Params) (a : Nat) : Nat := p.base + Config.registerArea + a

/-- `seed <v64>` (R52). -/
def seedLines (p : Config.Params) (v : U64) : List PortEvent :=
  [writeTo p .seedLo (v.extractLsb' 0 32), writeTo p .seedHi (v.extractLsb' 32 32)]

/-- `cfg <alg>` (R51): the word `0x00000001 | (alg << 4)`. -/
def cfgLine (p : Config.Params) (alg : BitVec 3) : PortEvent :=
  writeTo p .cmd (0x00000001#32 ||| (alg.setWidth 32 <<< 4))

/-- `upd <a>, <n>` (R52). -/
def updLines (p : Config.Params) (a n : U32) : List PortEvent :=
  [writeTo p .argAddr a, writeTo p .argLen n, writeTo p .cmd 0x00000003]

/-- `digest` (R52): as many registers as the digest has words. -/
def digestLines (p : Config.Params) (alg : Alg) : List PortEvent :=
  ([Reg.digest0, .digest1, .digest2, .digest3].take (digestLength alg / 4)).map (readFrom p)

/-- The transactions of a line, in order (R51, R52). -/
def ScriptLine.expand (p : Config.Params) : ScriptLine → List PortEvent
  | .nop => [writeTo p .cmd 0x00000000]
  | .cfg alg => [cfgLine p alg]
  | .reset => [writeTo p .cmd 0x00000002]
  | .update => [writeTo p .cmd 0x00000003]
  | .finalize => [writeTo p .cmd 0x00000004]
  | .cmd w => [writeTo p .cmd w]
  | .wr r v => [writeTo p r v]
  | .rd r => [readFrom p r]
  | .wrb a v => [.write (windowAddr p a) 1 v]
  | .wrh a v => [.write (windowAddr p a) 2 v]
  | .wrw a v => [.write (windowAddr p a) 4 v]
  | .rdb a => [.read (windowAddr p a) 1]
  | .rdh a => [.read (windowAddr p a) 2]
  | .rdw a => [.read (windowAddr p a) 4]
  | .seed v => seedLines p v
  | .cfgs alg v => seedLines p v ++ [cfgLine p alg]
  | .load a bytes => bytes.zipIdx.map fun (b, k) => .write (windowAddr p (a + k)) 1 (b.setWidth 32)
  | .upd a n => updLines p a n
  | .digest alg => digestLines p alg
  | .hash alg v a n =>
    seedLines p v ++ [cfgLine p alg.code] ++ updLines p a n ++ [writeTo p .cmd 0x00000004] ++ digestLines p alg

/-- `s` with a command script as its sequence of transactions to come (R131). -/
def State.withScript (s : State) (lines : List ScriptLine) : State :=
  { s with script := lines.flatMap (ScriptLine.expand s.params) }

end Sys2Proof.Machine
end

