-- ==== Sys2Proof/Safety.lean ====
section
/-! DEFINITION. The terms claims are stated in: the invariant of the block, what a fault-free run is (R115), and what it
is to feed a byte stream to the block in chunks (R65, R104). -/
namespace Sys2Proof.Machine

/-- The layout of `ACC` under an algorithm (R22): the bits and words it does not use are 0. -/
def accLayout (a : Alg) (acc : Accs) : Prop :=
  match a with
  | .xxh32 => acc = accs32 (lane32 acc.w0) (lane32 acc.w1) (lane32 acc.w2) (lane32 acc.w3)
  | .xxh64 => True
  | .mm3x64 => acc.w2 = 0 ∧ acc.w3 = 0
  | .mm3x86 => acc = accs32 (lane32 acc.w0) (lane32 acc.w1) (lane32 acc.w2) (lane32 acc.w3)

/-- What `ERR_CMD` holds beside each value of `ERR` (R18, R108). -/
def errCmdFits (err : Option ArchFault) (w : U32) : Prop :=
  match err with
  | none => w = 0
  | some .bounds => w = 0x00000003
  | some .misuse => w = 0x00000003
  | some .illegal => decode w = .illegal

/-- The invariant of the block: what the rules say of every state between two transactions. -/
structure State.Inv (s : State) : Prop where
  /-- R6 -/
  params : s.params.wf
  /-- the window's canonical form -/
  dinSorted : dinWf s.din
  /-- R29, R33: the window has `DIN_SIZE` bytes -/
  dinInside : ∀ c ∈ s.din, c.1 < s.params.dinSize
  /-- R22 -/
  acc : accLayout s.alg s.acc
  /-- R25 -/
  pcount : s.pcount.toNat < blockSize s.alg
  /-- R25; it holds across the wrap of `TOTAL_LEN` too, since `BS(ALG)` divides 2^64 -/
  pcountMod : s.pcount.toNat = s.totalLen.toNat % blockSize s.alg
  /-- R18, R108 -/
  errCmd : errCmdFits s.err s.errCmd
  /-- R16, R102, R127: no digest before `FINAL`, and a short digest padded with zero bytes -/
  digest : ∀ k : Fin 16, s.final = false ∨ digestLength s.alg ≤ k.val → s.digest[k.val] = 0
  /-- R115: an architectural fault is in the model's record -/
  record : s.err ≠ none → s.faultRecord = true

/-- No contract failure so far (R115, U20): the premise of a claim about what a run leaves. -/
def State.faultFree (s : State) : Prop := s.faultRecord = false

/-- `k` steps from `s` end in `t`, with no model fault, refusal or architectural fault (R115, R131). -/
def FaultFreeRun (k : Nat) (s t : State) : Prop := core.run k s = .next t ∧ t.faultFree

/-- The elements of the running computation agree (R4): the host may have changed `SEED_*`, `ARG_*` and `DIN`, as it may
between two commands (R40, R126). -/
structure SameRun (s t : State) : Prop where
  alg : s.alg = t.alg
  acc : s.acc = t.acc
  totalLen : s.totalLen = t.totalLen
  pbuf : s.pbuf = t.pbuf
  pcount : s.pcount = t.pcount
  final : s.final = t.final
  err : s.err = t.err

/-- The checks of `UPDATE` pass in `s`, and the bytes it reads are `c` (R60). -/
structure State.Takes (s : State) (c : List Byte) : Prop where
  unlocked : s.locked = false
  running : s.final = false
  inRange : s.argAddr.toNat + s.argLen.toNat ≤ s.params.dinSize
  bytes : memRead s.din s.argAddr.toNat s.argLen.toNat = some c

/-- An access of the host that runs no command: a read, or a write elsewhere than to `CMD`. -/
def quietAccess (p : Config.Params) : PortEvent → Bool
  | .read _ _ => true
  | .write addr _ _ => decide (addr ≠ p.base + Reg.offset .cmd)
  | .resetAssert => false
  | .resetRelease => false

/-- The host brings the block from `s` to `t` by accesses at its port that run no command (R132). -/
def HostActs (s t : State) : Prop :=
  ∃ es : List PortEvent, (∀ e ∈ es, quietAccess s.params e = true) ∧ portEvents es s = .next t

/-- From `s`, `UPDATE`s of the chunks, in order, lead to `t`; `between` says what may happen before each of them and after
the last. -/
def FedVia (between : State → State → Prop) (s : State) (chunks : List (List Byte)) (t : State) : Prop :=
  match chunks with
  | [] => between s t
  | c :: cs => ∃ s0 s1, between s s0 ∧ s0.Takes c ∧ exec .update s0 = .next s1 ∧ FedVia between s1 cs t

/-- The chunks fed with any change between that leaves the running computation: more than a host can do, so a law of every
such feeding is a law of every one at the port (R65). -/
abbrev Fed : State → List (List Byte) → State → Prop := FedVia SameRun

/-- The chunks fed by a host that acts at the port: the block's own window takes each of them (R37, R65). -/
abbrev FedAtPort : State → List (List Byte) → State → Prop := FedVia HostActs

/-- From `s`, `UPDATE`s of the chunks and then `FINALIZE` leave the digest `d` (R104), whatever else changed between. -/
def Hashes (s : State) (chunks : List (List Byte)) (d : Vector Byte 16) : Prop :=
  ∃ t u, Fed s chunks t ∧ exec .finalize t = .next u ∧ u.digest = d

/-- The state straight after `RESET`, or after `CFG` with a legal code (R104). -/
def JustReset (r : State) : Prop :=
  ∃ s i, (i = .reset ∨ ∃ a : Alg, i = .cfg a.code) ∧ exec i s = .next r

/-- A stop left as it is, a next state changed by `f`. -/
def mapNext (f : State → State) : Host.Outcome State Fault Refusal → Host.Outcome State Fault Refusal
  | .next s => .next (f s)
  | .fault r => .fault r
  | .refused r => .refused r

/-- The next action of the host's sequence writes to `CMD` a word that decodes to `i`. -/
def CommandIsNext (s : State) (i : Instr) : Prop :=
  ∃ w rest, s.script = .write (s.params.base + Reg.offset .cmd) 4 w :: rest ∧ decode w = .command i

/-- The next action asserts hardware reset. -/
def ResetIsNext (s : State) : Prop := ∃ rest, s.script = .resetAssert :: rest

/-- The full blocks of `n` bytes at the head of a stream: block `k` is its bytes `[k*n, (k+1)*n)` (R60). -/
def fullBlocks (n : Nat) (stream : List Byte) : List (List Byte) :=
  (List.range (stream.length / n)).map fun k => (stream.drop (k * n)).take n

/-- What is left of a stream after its full blocks. -/
def leftover (n : Nat) (stream : List Byte) : List Byte := stream.drop (stream.length / n * n)

end Sys2Proof.Machine
end

