-- ==== Sys2Proof/Certificates/Slice0/Obligations.lean ====
section
/-! DEFINITION. The statements for the provers, in the order of OBLIGATIONS.json. -/
open Sys2Proof Sys2Proof.Machine

/-! Commands -/

/-- R99. `NOP` changes nothing, in any state, and word 0x00000000 is `NOP`. -/
def Obligations.NopChangesNothing : Prop :=
  ∀ s : State, exec .nop s = .next s ∧ issue 0x00000000 s = .next s

/-- R101. `RESET` leaves the post-construction state, touches nothing else, is accepted while locked, and changes nothing
straight after `RESET` or `CFG`. -/
def Obligations.ResetRestoresPostConstruction : Prop :=
  ∀ s : State,
    exec .reset s = .next { s with
      acc := initAccs s.alg s.aseed
      totalLen := 0
      pbuf := Vector.replicate 32 0
      pcount := 0
      final := false
      digest := Vector.replicate 16 0
      err := none
      errCmd := 0 } ∧
    issue 0x00000002 s = exec .reset s ∧
    (JustReset s → exec .reset s = .next s)

/-- R100. `CFG` latches the algorithm and `SEED_ARG` and does a soft reset; with the algorithm and seed as before it is
`RESET`; its words are 0x00000001, 0x00000011, 0x00000021 and 0x00000031. -/
def Obligations.CfgLatchesAndRestarts : Prop :=
  ∀ (a : Alg) (s : State),
    exec (.cfg a.code) s = .next { s with
      alg := a
      aseed := s.seedHi ++ s.seedLo
      acc := initAccs a (s.seedHi ++ s.seedLo)
      totalLen := 0
      pbuf := Vector.replicate 32 0
      pcount := 0
      final := false
      digest := Vector.replicate 16 0
      err := none
      errCmd := 0 } ∧
    issue (0x00000001#32 ||| (a.code.setWidth 32 <<< 4)) s = exec (.cfg a.code) s ∧
    (s.alg = a → s.aseed = s.seedHi ++ s.seedLo → exec (.cfg a.code) s = exec .reset s)

/-- Log entry 8, the model's choice: the ill-formed `CFG` does what the illegal word it encodes to does (R50, R111). -/
def Obligations.CfgReservedCodeActsAsIllegalWord : Prop :=
  ∀ (c : BitVec 3) (s : State), 4 ≤ c.toNat →
    exec (.cfg c) s = issue (encode (.cfg c)) s ∧
    (s.err ≠ none → exec (.cfg c) s = .next s) ∧
    (s.err = none → exec (.cfg c) s = .next { s with err := some .illegal, errCmd := encode (.cfg c), faultRecord := true })

/-- R60, every path: dropped while locked; misuse; bounds; nothing to read; bytes that only fill the pending buffer; and full
blocks mixed in stream order, the rest kept pending. `fullBlocks` and `leftover` cut the stream that the pending bytes and
the new bytes make. That the bytes of `PBUF` not written stay, at the new `PCOUNT` and above too, is the model's reading (log
entry 6: U10 lets them be any value). -/
def Obligations.UpdateRunsTheStreamingBuffer : Prop :=
  ∀ s : State,
    issue 0x00000003 s = exec .update s ∧
    (s.err ≠ none → exec .update s = .next s) ∧
    (s.err = none → s.final = true →
      exec .update s = .next { s with err := some .misuse, errCmd := 0x00000003, faultRecord := true }) ∧
    (s.err = none → s.final = false → s.params.dinSize < s.argAddr.toNat + s.argLen.toNat →
      exec .update s = .next { s with err := some .bounds, errCmd := 0x00000003, faultRecord := true }) ∧
    (s.err = none → s.final = false → s.argAddr.toNat + s.argLen.toNat ≤ s.params.dinSize → s.argLen = 0 →
      exec .update s = .next s) ∧
    (∀ b, s.Takes b → 0 < b.length → s.pcount.toNat + b.length < blockSize s.alg →
      ∃ file : Vector Byte 32,
        (∀ k (hk : k < 32), file[k] =
          if s.pcount.toNat ≤ k ∧ k < s.pcount.toNat + b.length then b.getD (k - s.pcount.toNat) 0 else s.pbuf[k]) ∧
        exec .update s = .next { s with
          totalLen := s.totalLen + s.argLen.setWidth 64
          pbuf := file
          pcount := s.pcount + BitVec.ofNat 6 b.length }) ∧
    (∀ b, s.Takes b → s.pcount.toNat < blockSize s.alg → blockSize s.alg ≤ s.pcount.toNat + b.length →
      ∃ (acc : Accs) (file : Vector Byte 32),
        (fullBlocks (blockSize s.alg) (s.pending ++ b)).foldlM (mix s.alg) s.acc = some acc ∧
        (∀ k (hk : k < 32), file[k] =
          if k < (s.pcount.toNat + b.length) % blockSize s.alg
          then (leftover (blockSize s.alg) (s.pending ++ b)).getD k 0 else s.pbuf[k]) ∧
        exec .update s = .next { s with
          acc := acc
          totalLen := s.totalLen + s.argLen.setWidth 64
          pbuf := file
          pcount := BitVec.ofNat 6 ((s.pcount.toNat + b.length) % blockSize s.alg) })

/-- R102, R103, R114. `FINALIZE` stores the digest, padded with zero bytes, and sets `FINAL`; nothing else changes. In a state
that breaks R25 it stops with the model fault `contract`, which is the model's choice (log entry 7). -/
def Obligations.FinalizeStoresThePaddedDigest : Prop :=
  ∀ s : State,
    issue 0x00000004 s = exec .finalize s ∧
    (s.err ≠ none → exec .finalize s = .next s) ∧
    (s.final = true → exec .finalize s = .next s) ∧
    (s.err = none → s.final = false → s.pcount.toNat < blockSize s.alg →
      ∃ (d : List Byte) (file : Vector Byte 16),
        fin s.alg s.acc s.totalLen s.pending = some d ∧ d.length = digestLength s.alg ∧
        file.toList = d ++ List.replicate (16 - digestLength s.alg) 0 ∧
        exec .finalize s = .next { s with digest := file, final := true }) ∧
    (s.err = none → s.final = false → blockSize s.alg ≤ s.pcount.toNat → exec .finalize s = .fault .contract)

/-- R103. A `FINALIZE` while `FINAL = 1` changes nothing, so the digest stays. -/
def Obligations.SecondFinalizeChangesNothing : Prop :=
  ∀ s : State, s.final = true → exec .finalize s = .next s ∧ issue 0x00000004 s = .next s

/-- R110, R129. After a digest, `UPDATE` is misuse, whatever its range, until `RESET` or `CFG`; a second `FINALIZE` is not. -/
def Obligations.UpdateAfterFinalizeIsMisuse : Prop :=
  ∀ s : State, s.err = none → s.final = true →
    exec .update s = .next { s with err := some .misuse, errCmd := 0x00000003, faultRecord := true } ∧
    exec .finalize s = .next s ∧
    (∀ t, exec .reset s = .next t → t.final = false ∧ t.err = none) ∧
    (∀ (a : Alg) t, exec (.cfg a.code) s = .next t → t.final = false ∧ t.err = none)

/-- R109, R62. An unlocked `UPDATE` with `FINAL = 0` raises `BoundsFault` exactly when the exact sum of address and length
exceeds `DIN_SIZE`, an empty range included; and then it only records. -/
def Obligations.BoundsFaultExactlyOutOfRange : Prop :=
  ∀ s : State, s.err = none → s.final = false →
    ((∃ t, exec .update s = .next t ∧ t.err = some .bounds) ↔
      s.params.dinSize < s.argAddr.toNat + s.argLen.toNat) ∧
    (s.params.dinSize < s.argAddr.toNat + s.argLen.toNat →
      exec .update s = .next { s with err := some .bounds, errCmd := 0x00000003, faultRecord := true })

/-- R113. The first match of the order is reported: the lock, the word, misuse, bounds. -/
def Obligations.FaultPriorityOrder : Prop :=
  ∀ (w : U32) (s : State),
    (s.err ≠ none → (∀ c, decode w ≠ .command (.cfg c)) → decode w ≠ .command .reset → issue w s = .next s) ∧
    (s.err = none → decode w = .illegal →
      issue w s = .next { s with err := some .illegal, errCmd := w, faultRecord := true }) ∧
    (s.err = none → decode w = .command .update → s.final = true →
      issue w s = .next { s with err := some .misuse, errCmd := w, faultRecord := true }) ∧
    (s.err = none → decode w = .command .update → s.final = false →
      s.params.dinSize < s.argAddr.toNat + s.argLen.toNat →
      issue w s = .next { s with err := some .bounds, errCmd := w, faultRecord := true })

/-- R112. A command that leaves a fault recorded, where none was, changes nothing but the record: every fault is precise. -/
def Obligations.FaultsArePrecise : Prop :=
  ∀ (w : U32) (s t : State) (f : ArchFault), s.err = none → issue w s = .next t → t.err = some f →
    t = { s with err := some f, errCmd := w, faultRecord := true }

/-- R114. While locked, `NOP`, `UPDATE`, `FINALIZE` and illegal words change nothing; `CFG` and `RESET` run and release the
lock; register reads, register writes and window accesses act as in the state without the fault. -/
def Obligations.LockedBlockDropsCommands : Prop :=
  ∀ s : State, s.err ≠ none →
    exec .nop s = .next s ∧ exec .update s = .next s ∧ exec .finalize s = .next s ∧
    (∀ w, decode w = .illegal → issue w s = .next s) ∧
    (∃ t, exec .reset s = .next t ∧ t.err = none ∧ t.errCmd = 0 ∧
      exec .reset { s with err := none, errCmd := 0 } = .next t) ∧
    (∀ a : Alg, ∃ t, exec (.cfg a.code) s = .next t ∧ t.err = none ∧ t.errCmd = 0 ∧
      exec (.cfg a.code) { s with err := none, errCmd := 0 } = .next t) ∧
    (∀ r v, (s.writeReg r v) = { ({ s with err := none, errCmd := 0 } : State).writeReg r v with
      err := s.err, errCmd := s.errCmd }) ∧
    (∀ r, r ≠ .status → r ≠ .errCmd → s.readReg r = ({ s with err := none, errCmd := 0 } : State).readReg r) ∧
    (∀ a n v, s.inReset = false → (n = 1 ∨ n = 2 ∨ n = 4) → a + n ≤ s.params.dinSize →
      portEvent (.write (s.params.base + 0x100 + a) n v) s = .next { s with din := memWrite s.din a n v }) ∧
    (∀ a n bs, s.inReset = false → (n = 1 ∨ n = 2 ∨ n = 4) → a + n ≤ s.params.dinSize → memRead s.din a n = some bs →
      portEvent (.read (s.params.base + 0x100 + a) n) s = .next { s with reads := s.reads ++ [leWord 32 bs] })

/-- R63. `TOTAL_LEN` grows by `ARG_LEN` on every `UPDATE` that passes its checks, and a faulting or dropped one leaves it. -/
def Obligations.TotalLenGrowsByArgLen : Prop :=
  ∀ s t : State, exec .update s = .next t →
    t.totalLen =
      if s.err = none ∧ s.final = false ∧ s.argAddr.toNat + s.argLen.toNat ≤ s.params.dinSize
      then s.totalLen + s.argLen.setWidth 64 else s.totalLen

/-- R64. An empty `UPDATE` that passes its checks changes nothing; the misuse and bounds checks come first. -/
def Obligations.EmptyUpdateChangesNothing : Prop :=
  ∀ s : State, s.err = none → s.argLen = 0 →
    (s.final = false → s.argAddr.toNat ≤ s.params.dinSize → exec .update s = .next s) ∧
    (s.final = true → exec .update s = .next { s with err := some .misuse, errCmd := 0x00000003, faultRecord := true }) ∧
    (s.final = false → s.params.dinSize < s.argAddr.toNat →
      exec .update s = .next { s with err := some .bounds, errCmd := 0x00000003, faultRecord := true })

/-! Laws of the stream -/

/-- R65. However a stream is cut into chunks, feeding them leaves the state that feeding the whole stream at once leaves, and
`FINALIZE` gives the same digest. -/
def Obligations.ChunkInvariance : Prop :=
  ∀ (s t t' : State) (chunks : List (List Byte)), Fed s chunks t → Fed s [chunks.flatten] t' →
    t.acc = t'.acc ∧ t.totalLen = t'.totalLen ∧ t.pcount = t'.pcount ∧ t.pending = t'.pending ∧
    (∀ u u', s.err = none → s.final = false → exec .finalize t = .next u → exec .finalize t' = .next u' →
      u.digest = u'.digest)

/-- R104. The digest is a function of the algorithm, the part of the seed it reads, and the byte stream since the last `RESET`
or `CFG`. -/
def Obligations.DigestIsAFunctionOfSeedAndStream : Prop :=
  ∀ (r1 r2 : State) (cs1 cs2 : List (List Byte)) (d1 d2 : Vector Byte 16),
    JustReset r1 → JustReset r2 → r1.alg = r2.alg → seedPart r1.alg r1.aseed = seedPart r2.alg r2.aseed →
    cs1.flatten = cs2.flatten → Hashes r1 cs1 d1 → Hashes r2 cs2 d2 → d1 = d2

/-- R105. `RESET` and then a stream give the digest that `CFG` with the same algorithm and seed and then that stream give. -/
def Obligations.ResetEquivalence : Prop :=
  ∀ (s1 s2 r1 r2 : State), exec .reset s1 = .next r1 → exec (.cfg s1.alg.code) s2 = .next r2 →
    s2.seedHi ++ s2.seedLo = s1.aseed →
    SameRun r1 r2 ∧ r1.aseed = r2.aseed ∧ r1.digest = r2.digest ∧
    (∀ cs1 cs2 d1 d2, cs1.flatten = cs2.flatten → Hashes r1 cs1 d1 → Hashes r2 cs2 d2 → d1 = d2)

/-- From any state of the invariant outside hardware reset: `RESET`, `UPDATE`s of any chunks that each fit the block's own
window, put there by the host's accesses at the port, and `FINALIZE` complete, with no fault, and leave a digest (R37, R60,
R101, R102). So the laws above are about runs that exist. -/
def Obligations.EveryStreamHasADigest : Prop :=
  ∀ (s r : State) (chunks : List (List Byte)), s.Inv → s.inReset = false → (∀ c ∈ chunks, c.length ≤ s.params.dinSize) →
    exec .reset s = .next r →
    ∃ t u, FedAtPort r chunks t ∧ exec .finalize t = .next u ∧ u.final = true ∧ u.err = none ∧
      u.params = s.params ∧ u.alg = s.alg ∧ u.aseed = s.aseed ∧ u.faultRecord = s.faultRecord ∧
      u.totalLen = BitVec.ofNat 64 chunks.flatten.length ∧ Hashes r chunks u.digest

/-- R39. After reset no byte of the window has a value; a host read of such a byte, or an `UPDATE` whose range covers one, is
a model fault. -/
def Obligations.UnwrittenBytesHaveNoValue : Prop :=
  (∀ p a, dinByte (State.resetWith p).din a = none) ∧
  (∀ s : State, ∀ a, dinByte s.hardwareReset.din a = none) ∧
  (∀ (s : State) a n k, s.inReset = false → (n = 1 ∨ n = 2 ∨ n = 4) → a + n ≤ s.params.dinSize → k < n →
    dinByte s.din (a + k) = none → portEvent (.read (s.params.base + 0x100 + a) n) s = .fault .unwrittenDin) ∧
  (∀ (s : State) k, s.err = none → s.final = false → s.argAddr.toNat + s.argLen.toNat ≤ s.params.dinSize →
    k < s.argLen.toNat → dinByte s.din (s.argAddr.toNat + k) = none → exec .update s = .fault .unwrittenDin)

/-! Encoding and issue -/

/-- R48, R49. The decoder gives a command exactly on that command's own word: encoding and decoding are inverse both ways. -/
def Obligations.DecodeInvertsEncode : Prop :=
  ∀ (w : U32) (i : Instr), decode w = .command i ↔ i.wellFormed = true ∧ w = encode i

/-- R50. The illegal words are the four kinds the rule lists, and an unlocked write of one raises `IllegalCommand`. -/
def Obligations.IllegalWordsAreTheReservedSpace : Prop :=
  ∀ w : U32,
    (decode w = .illegal ↔
      5 ≤ (w.extractLsb' 0 4).toNat ∨
      (((w.extractLsb' 0 4).toNat = 0 ∨ (w.extractLsb' 0 4).toNat = 2 ∨ (w.extractLsb' 0 4).toNat = 3 ∨
        (w.extractLsb' 0 4).toNat = 4) ∧ w.extractLsb' 4 28 ≠ 0) ∨
      ((w.extractLsb' 0 4).toNat = 1 ∧ w.getLsbD 6 = true) ∨
      ((w.extractLsb' 0 4).toNat = 1 ∧ w.extractLsb' 7 25 ≠ 0)) ∧
    (decode w = .illegal → ∀ s : State, s.err = none →
      issue w s = .next { s with err := some .illegal, errCmd := w, faultRecord := true })

/-- Words of `95_test_vectors.md` section 6.2, decoded. -/
def Obligations.SpecWordsDecode : Prop :=
  decode 0x00000000 = .command .nop ∧ decode 0x00000001 = .command (.cfg 0) ∧ decode 0x00000011 = .command (.cfg 1) ∧
  decode 0x00000021 = .command (.cfg 2) ∧ decode 0x00000031 = .command (.cfg 3) ∧ decode 0x00000041 = .illegal ∧
  decode 0x00000002 = .command .reset ∧ decode 0x00000003 = .command .update ∧ decode 0x00000004 = .command .finalize ∧
  decode 0x00000005 = .illegal ∧ decode 0x00000010 = .illegal ∧ decode 0x80000003 = .illegal ∧ decode 0xFFFFFFFF = .illegal

/-- R8, R44, R46, R107. When the next action is a write to `CMD`, `step` runs the decoded command on the state with that action
taken; and so it does on the word `withFetchWord` places. -/
def Obligations.StepRunsTheDecodedCommand : Prop :=
  (∀ (s : State) (w : U32) (rest : List PortEvent) (i : Instr), s.inReset = false →
    s.script = .write s.params.base 4 w :: rest → decode w = .command i → step s = exec i { s with script := rest }) ∧
  (∀ (s : State) (w : U32) (rest : List PortEvent), s.inReset = false → s.script = .write s.params.base 4 w :: rest →
    decode w = .illegal → step s = .next (({ s with script := rest } : State).raiseIllegal w)) ∧
  (∀ (s : State) (w : U32) (i : Instr), decode w = .command i →
    step (s.withFetchWord 32 w.toNat) = exec i { s with inReset := false })

/-- R107. What a write to `CMD` runs, in the order of the rule. -/
def Obligations.IssueFollowsItsOrder : Prop :=
  ∀ (w : U32) (s : State),
    issue w s =
      match decode w with
      | .command (.cfg c) => exec (.cfg c) s
      | .command .reset => exec .reset s
      | d =>
        if s.err ≠ none then .next s
        else match d with
          | .illegal => .next { s with err := some .illegal, errCmd := w, faultRecord := true }
          | .command i => exec i s

/-- R8, R42, R131; what a step does with no action left is the model's choice (log entry 2). -/
def Obligations.StepTakesActionsInOrder : Prop :=
  (∀ (s : State) e rest, s.script = e :: rest → step s = portEvent e { s with script := rest }) ∧
  (∀ s : State, s.script = [] → step s = .next s)

/-! The port -/

/-- R10, R11. Reads of the register area return the register, and 0 at `CMD` and the reserved offsets, with no other effect;
writes to read-only registers and reserved offsets do nothing; a plain register holds what is written and reads it back;
an access of another width or at another offset is refused, under the name `accessForm`, which is the model's choice (log
entry 10). -/
def Obligations.RegisterAreaAccess : Prop :=
  ∀ s : State, s.inReset = false →
    (∀ ov ∈ [(0x000, 0), (0x004, s.status), (0x008, s.seedLo), (0x00C, s.seedHi), (0x010, s.argAddr), (0x014, s.argLen),
        (0x018, s.totalLen.extractLsb' 0 32), (0x01C, s.totalLen.extractLsb' 32 32),
        (0x020, leWord 32 (s.digest.toList.take 4)), (0x024, leWord 32 ((s.digest.toList.drop 4).take 4)),
        (0x028, leWord 32 ((s.digest.toList.drop 8).take 4)), (0x02C, leWord 32 ((s.digest.toList.drop 12).take 4)),
        (0x030, s.aseed.extractLsb' 0 32), (0x034, s.aseed.extractLsb' 32 32), (0x038, s.errCmd)],
      portEvent (.read (s.params.base + ov.1) 4) s = .next { s with reads := s.reads ++ [ov.2] }) ∧
    (∀ o, 0x03C ≤ o → o < 0x100 → o % 4 = 0 →
      portEvent (.read (s.params.base + o) 4) s = .next { s with reads := s.reads ++ [0] } ∧
      ∀ v, portEvent (.write (s.params.base + o) 4 v) s = .next s) ∧
    (∀ o ∈ [0x004, 0x018, 0x01C, 0x020, 0x024, 0x028, 0x02C, 0x030, 0x034, 0x038], ∀ v,
      portEvent (.write (s.params.base + o) 4 v) s = .next s) ∧
    (∀ v, portEvent (.write (s.params.base + 0x008) 4 v) s = .next { s with seedLo := v } ∧
      portEvent (.write (s.params.base + 0x00C) 4 v) s = .next { s with seedHi := v } ∧
      portEvent (.write (s.params.base + 0x010) 4 v) s = .next { s with argAddr := v } ∧
      portEvent (.write (s.params.base + 0x014) 4 v) s = .next { s with argLen := v }) ∧
    (∀ o width, o < 0x100 → (width ≠ 4 ∨ o % 4 ≠ 0) →
      portEvent (.read (s.params.base + o) width) s = .refused .accessForm ∧
      ∀ v, portEvent (.write (s.params.base + o) width v) s = .refused .accessForm)

/-- R12. The fields of `STATUS`; at most one of bits [3:1] is 1; it is 0 at reset. -/
def Obligations.StatusFields : Prop :=
  (∀ s : State,
    (s.status.getLsbD 0 = s.final) ∧
    (s.status.getLsbD 1 = decide (s.err = some .bounds)) ∧
    (s.status.getLsbD 2 = decide (s.err = some .misuse)) ∧
    (s.status.getLsbD 3 = decide (s.err = some .illegal)) ∧
    s.status.extractLsb' 4 3 = s.alg.code ∧ (s.status.extractLsb' 4 3).toNat < 4 ∧
    s.status.getLsbD 7 = false ∧
    s.status.extractLsb' 8 6 = s.pcount ∧ (s.Inv → (s.status.extractLsb' 8 6).toNat < 32) ∧
    s.status.extractLsb' 14 18 = 0 ∧
    (s.err ≠ none ↔ s.status.extractLsb' 1 3 ≠ 0)) ∧
  ∀ p, (State.resetWith p).status = 0

/-- R16, R127. Byte `k` of the digest is byte `k % 4` of register `DIGEST(k / 4)`; short digests read 0 above their bytes, and
all four read 0 while `FINAL` is 0. -/
def Obligations.DigestRegistersShowTheDigest : Prop :=
  (∀ (s : State) k (hk : k < 16), (s.digestWord (k / 4)).extractLsb' (8 * (k % 4)) 8 = s.digest[k]) ∧
  (∀ s : State, s.Inv → ∀ j, j < 4 → (s.final = false ∨ digestLength s.alg ≤ 4 * j) → s.digestWord j = 0) ∧
  (∀ s : State, s.readReg .digest0 = s.digestWord 0 ∧ s.readReg .digest1 = s.digestWord 1 ∧
    s.readReg .digest2 = s.digestWord 2 ∧ s.readReg .digest3 = s.digestWord 3) ∧
  (∀ (s : State) (h : U32), s.digest.toList.take 4 = le32 h → s.readReg .digest0 = h) ∧
  (∀ (s : State) (h : U64), s.digest.toList.take 8 = le64 h → s.readReg .digest1 ++ s.readReg .digest0 = h)

/-- R13, R124. The host's writes to `SEED_LO` and `SEED_HI` change nothing else, and only `CFG` reads them: every other command
does the same whatever they hold. -/
def Obligations.OnlyCfgReadsTheSeedArgument : Prop :=
  (∀ (s : State) v, s.writeReg .seedLo v = { s with seedLo := v } ∧ s.writeReg .seedHi v = { s with seedHi := v }) ∧
  (∀ s : State, s.seedArg = s.seedHi ++ s.seedLo ∧ (s.seedArg.extractLsb' 32 32 = s.seedHi)) ∧
  (∀ (i : Instr) (s : State) lo hi, (∀ c, i ≠ .cfg c) →
    exec i { s with seedLo := lo, seedHi := hi } = mapNext (fun t => { t with seedLo := lo, seedHi := hi }) (exec i s))

/-- R14, R125. The host's writes to `ARG_ADDR` and `ARG_LEN` change nothing else, `UPDATE` leaves them, and only `UPDATE` reads
them. -/
def Obligations.OnlyUpdateReadsTheRangeArguments : Prop :=
  (∀ (s : State) v, s.writeReg .argAddr v = { s with argAddr := v } ∧ s.writeReg .argLen v = { s with argLen := v }) ∧
  (∀ s t : State, exec .update s = .next t → t.argAddr = s.argAddr ∧ t.argLen = s.argLen) ∧
  (∀ (i : Instr) (s : State) a n, i ≠ .update →
    exec i { s with argAddr := a, argLen := n } = mapNext (fun t => { t with argAddr := a, argLen := n }) (exec i s))

/-- R15, R17. The two halves of `TOTAL_LEN` and of `ASEED`, put together, are the whole. -/
def Obligations.LengthAndSeedViews : Prop :=
  ∀ s : State, s.readReg .lenHi ++ s.readReg .lenLo = s.totalLen ∧ s.readReg .aseedHi ++ s.readReg .aseedLo = s.aseed

/-- R33, R34, R35. Exactly the forms of R35 are transactions of the block: an access is refused if and only if it is none of
them. Which of two names a refusal has, read or write, is the model's choice (log entry 10): `notDecoded` where the block does
not decode the address, `accessForm` for the other forms. -/
def Obligations.OtherAccessFormsAreRefused : Prop :=
  ∀ (s : State) (addr width : Nat), s.inReset = false →
    (((∃ r, portEvent (.read addr width) s = .refused r) ↔
      ¬((∃ o, addr = s.params.base + o ∧ o < 0x100 ∧ o % 4 = 0 ∧ width = 4) ∨
        (∃ a, addr = s.params.base + 0x100 + a ∧ (width = 1 ∨ width = 2 ∨ width = 4) ∧ a + width ≤ s.params.dinSize))) ∧
     (∀ v, (∃ r, portEvent (.write addr width v) s = .refused r) ↔
      ¬((∃ o, addr = s.params.base + o ∧ o < 0x100 ∧ o % 4 = 0 ∧ width = 4) ∨
        (∃ a, addr = s.params.base + 0x100 + a ∧ (width = 1 ∨ width = 2 ∨ width = 4) ∧ a + width ≤ s.params.dinSize))) ∧
     ((addr < s.params.base ∨ s.params.base + 0x100 + s.params.dinSize ≤ addr) →
      portEvent (.read addr width) s = .refused .notDecoded ∧
      ∀ v, portEvent (.write addr width v) s = .refused .notDecoded) ∧
     (s.params.base ≤ addr → addr < s.params.base + 0x100 + s.params.dinSize →
      (∀ r, portEvent (.read addr width) s = .refused r → r = .accessForm) ∧
      ∀ v r, portEvent (.write addr width v) s = .refused r → r = .accessForm))

/-- R36, R37. A window write sets bytes `a` to `a+n-1` from the value, least significant first, and changes nothing else; and
but for hardware reset nothing else at the port, a command included, changes a byte of the window. -/
def Obligations.WindowWriteSetsItsBytes : Prop :=
  (∀ (s : State) (a n : Nat) (v : U32), s.inReset = false → (n = 1 ∨ n = 2 ∨ n = 4) → a + n ≤ s.params.dinSize →
    ∃ t, portEvent (.write (s.params.base + 0x100 + a) n v) s = .next t ∧ t = { s with din := t.din } ∧
      ∀ x, dinByte t.din x = if a ≤ x ∧ x < a + n then some (v.extractLsb' (8 * (x - a)) 8) else dinByte s.din x) ∧
  (∀ (e : PortEvent) (s t : State), portEvent e s = .next t → t.din ≠ s.din →
    e = .resetAssert ∨ ∃ a n v, e = .write (s.params.base + 0x100 + a) n v ∧ (n = 1 ∨ n = 2 ∨ n = 4) ∧ a + n ≤ s.params.dinSize)

/-- R36, R38. A window read returns the sum of its bytes at their places, and what a 4-byte write put there a 1-byte read at
each of its offsets gives back. -/
def Obligations.WindowReadsReturnWhatWasWritten : Prop :=
  (∀ (s : State) (a n : Nat) (bs : List Byte), s.inReset = false → (n = 1 ∨ n = 2 ∨ n = 4) → a + n ≤ s.params.dinSize →
    bs.length = n → (∀ k, k < n → dinByte s.din (a + k) = some (bs.getD k 0)) →
    portEvent (.read (s.params.base + 0x100 + a) n) s = .next { s with
      reads := s.reads ++ [BitVec.ofNat 32 (((List.range n).map fun k => (bs.getD k 0).toNat * 256 ^ k).sum)] }) ∧
  (∀ (s t : State) (a k : Nat) (v : U32), s.inReset = false → a + 4 ≤ s.params.dinSize → k < 4 →
    portEvent (.write (s.params.base + 0x100 + a) 4 v) s = .next t →
    portEvent (.read (s.params.base + 0x100 + (a + k)) 1) t = .next { t with
      reads := t.reads ++ [(v.extractLsb' (8 * k) 8).setWidth 32] })

/-- R11, R41. A read changes nothing: the next state is the one before, with one more value returned to the host. -/
def Obligations.ReadsHaveNoSideEffect : Prop :=
  ∀ (s t : State) (addr width : Nat), portEvent (.read addr width) s = .next t →
    ∃ v, t = { s with reads := s.reads ++ [v] } ∧ portEvent (.read addr width) t = .next { t with reads := t.reads ++ [v] }

/-! Reset, invariant and whole-machine rules -/

/-- Every step keeps the invariant (R6, R16, R18, R22, R25, R27, R29, R102, R108, R115, R127). -/
def Obligations.StepKeepsTheInvariant : Prop :=
  ∀ s t : State, s.Inv → step s = .next t → t.Inv

/-- The state after reset meets the invariant, for every legal choice of the parameters. -/
def Obligations.ResetMeetsTheInvariant : Prop :=
  ∀ p : Config.Params, p.wf → (State.resetWith p).Inv

/-- R32. The reset values; and hardware reset leaves what `CFG` with `ALG = 0` and seed 0 leaves, but for `DIN`. -/
def Obligations.ResetValues : Prop :=
  ∀ p : Config.Params,
    (State.resetWith p).alg = .xxh32 ∧ (State.resetWith p).aseed = 0 ∧ (State.resetWith p).seedLo = 0 ∧
    (State.resetWith p).seedHi = 0 ∧ (State.resetWith p).argAddr = 0 ∧ (State.resetWith p).argLen = 0 ∧
    (State.resetWith p).acc = ⟨0x24234428, 0x85EBCA77, 0x00000000, 0x61C8864F⟩ ∧
    (State.resetWith p).acc = xxh32Init 0 ∧
    (State.resetWith p).totalLen = 0 ∧ (State.resetWith p).pbuf = Vector.replicate 32 0 ∧
    (State.resetWith p).pcount = 0 ∧ (State.resetWith p).final = false ∧ (State.resetWith p).err = none ∧
    (State.resetWith p).errCmd = 0 ∧ (State.resetWith p).digest = Vector.replicate 16 0 ∧
    (∀ a, dinByte (State.resetWith p).din a = none) ∧
    (∀ m : List Host.Cell, exec (.cfg 0) { State.resetWith p with din := m } = .next { State.resetWith p with din := m })

/-- R120. The reset signal puts every element at its reset value; while it is asserted the block takes no transaction, and it
goes on when it is released. That a transaction then stops the model, and that the model's record stays, is the model's
reading (log entries 3 and 5). -/
def Obligations.HardwareResetSignal : Prop :=
  ∀ s : State,
    portEvent .resetAssert s = .next { State.resetWith s.params with
      inReset := true, faultRecord := s.faultRecord, script := s.script, reads := s.reads } ∧
    portEvent .resetRelease s = .next { s with inReset := false } ∧
    (s.inReset = true → ∀ addr width, portEvent (.read addr width) s = .fault .heldInReset ∧
      ∀ v, portEvent (.write addr width v) s = .fault .heldInReset)

/-- R115. No step clears the model's fault record, and a step that leaves a fault recorded in `ERR`, where that fault was not,
sets it. -/
def Obligations.FaultRecordIsNeverCleared : Prop :=
  ∀ s t : State, step s = .next t →
    (s.faultRecord = true → t.faultRecord = true) ∧ (t.err ≠ none → t.err ≠ s.err → t.faultRecord = true)

/-- R19, R20. Only `CFG`, and hardware reset, change `ALG` or `ASEED`. -/
def Obligations.OnlyCfgWritesAlgorithmAndSeed : Prop :=
  ∀ s t : State, step s = .next t → (t.alg ≠ s.alg ∨ t.aseed ≠ s.aseed) →
    (∃ c, CommandIsNext s (.cfg c)) ∨ ResetIsNext s

/-- R26. Only `FINALIZE` sets `FINAL`; only `RESET`, `CFG` and hardware reset clear it. -/
def Obligations.FinalFlagWriters : Prop :=
  ∀ s t : State, step s = .next t →
    (s.final = false → t.final = true → CommandIsNext s .finalize) ∧
    (s.final = true → t.final = false → CommandIsNext s .reset ∨ (∃ c, CommandIsNext s (.cfg c)) ∨ ResetIsNext s)

/-- R27. A recorded fault stays, with its command word, until `RESET`, `CFG` or hardware reset clears both. -/
def Obligations.RecordedFaultStaysUntilReset : Prop :=
  ∀ s t : State, step s = .next t → s.err ≠ none →
    (t.err = s.err ∧ t.errCmd = s.errCmd) ∨
    (t.err = none ∧ t.errCmd = 0 ∧ (CommandIsNext s .reset ∨ (∃ c, CommandIsNext s (.cfg c)) ∨ ResetIsNext s))

/-- R23. Only `UPDATE` adds to `TOTAL_LEN`; `RESET`, `CFG` and hardware reset clear it. -/
def Obligations.TotalLenWriters : Prop :=
  ∀ s t : State, step s = .next t → t.totalLen ≠ s.totalLen →
    (CommandIsNext s .update ∧ t.totalLen = s.totalLen + s.argLen.setWidth 64) ∨
    (t.totalLen = 0 ∧ (CommandIsNext s .reset ∨ (∃ c, CommandIsNext s (.cfg c)) ∨ ResetIsNext s))

/-- The frame of every command: what it leaves unchanged when it gives a next state. No command stores to the window. -/
def Obligations.CommandFrames : Prop :=
  (∀ (i : Instr) (s t : State), exec i s = .next t →
    t.params = s.params ∧ t.seedLo = s.seedLo ∧ t.seedHi = s.seedHi ∧ t.argAddr = s.argAddr ∧ t.argLen = s.argLen ∧
    t.inReset = s.inReset ∧ t.script = s.script ∧ t.reads = s.reads ∧ ∀ a, dinByte t.din a = dinByte s.din a) ∧
  (∀ s t : State, exec .update s = .next t → t = { s with
    acc := t.acc, totalLen := t.totalLen, pbuf := t.pbuf, pcount := t.pcount,
    err := t.err, errCmd := t.errCmd, faultRecord := t.faultRecord }) ∧
  (∀ s t : State, exec .finalize s = .next t → t = { s with digest := t.digest, final := t.final }) ∧
  (∀ s t : State, exec .reset s = .next t → t.alg = s.alg ∧ t.aseed = s.aseed ∧ t.faultRecord = s.faultRecord) ∧
  (∀ (a : Alg) (s t : State), exec (.cfg a.code) s = .next t → t.faultRecord = s.faultRecord)

/-- R119. Blocks on a platform share nothing: an access reaches the one block that decodes its address, does there what it
would do to that block alone, and leaves every other block as it was. -/
def Obligations.InstancesShareNothing : Prop :=
  (∀ (m m' : Platform) (k : Nat) (e : PortEvent), m.act k e = .next m' →
    (∀ j, j ≠ k → m'.blocks[j]? = m.blocks[j]?) ∧
    ∃ s s', m.blocks[k]? = some s ∧ portEvent e s = .next s' ∧ m'.blocks[k]? = some s') ∧
  (∀ (m : Platform) (k : Nat) (e : PortEvent) (s s' : State), m.blocks[k]? = some s → portEvent e s = .next s' →
    ∃ m', m.act k e = .next m') ∧
  (∀ (m : Platform) (j k : Nat) (s t : State) (addr : Nat), m.wf → m.blocks[j]? = some s → m.blocks[k]? = some t →
    decodes s.params addr = true → decodes t.params addr = true → j = k) ∧
  (∀ (m : Platform) (k : Nat) (s : State) (addr : Nat) (e : PortEvent), m.wf → m.blocks[k]? = some s →
    decodes s.params addr = true → m.access addr e = m.act k e)

/-! Bit operations -/

/-- R55, R56. On the amounts the rules allow, the shift forms are rotations to the left. -/
def Obligations.RotatesMoveEveryBit : Prop :=
  (∀ (x : U32) r, 1 ≤ r → r ≤ 31 → rotl32 x r = x.rotateLeft r) ∧
  (∀ (x : U64) r, 1 ≤ r → r ≤ 63 → rotl64 x r = x.rotateLeft r)

/-- R57. `readLE32` gives the four bytes at the offset, zero-extended and shifted to their places, and has no answer where it
would read past the sequence. -/
def Obligations.ReadLE32AtAnyOffset : Prop :=
  ∀ (s : List Byte) (o : Nat),
    (o + 4 ≤ s.length → readLE32 s o =
      some ((s.getD o 0).setWidth 32 ||| ((s.getD (o + 1) 0).setWidth 32 <<< 8) |||
        ((s.getD (o + 2) 0).setWidth 32 <<< 16) ||| ((s.getD (o + 3) 0).setWidth 32 <<< 24))) ∧
    (s.length < o + 4 → readLE32 s o = none)

/-- R58. `readLE64` is two `readLE32` put together, and the sum of its bytes at their places. -/
def Obligations.ReadLE64AtAnyOffset : Prop :=
  ∀ (s : List Byte) (o : Nat),
    (o + 8 ≤ s.length → ∃ lo hi, readLE32 s o = some lo ∧ readLE32 s (o + 4) = some hi ∧
      readLE64 s o = some (lo.setWidth 64 ||| (hi.setWidth 64 <<< 32)) ∧
      readLE64 s o = some (BitVec.ofNat 64 (((List.range 8).map fun k => (s.getD (o + k) 0).toNat * 256 ^ k).sum))) ∧
    (s.length < o + 8 → readLE64 s o = none)

/-- R59. `packLE` packs bytes little-endian below zero bytes; xor gives what or gives. -/
def Obligations.PackLEIsTheXorOfItsBytes : Prop :=
  ∀ (s : List Byte) (i j : Nat), i ≤ j → j ≤ s.length →
    (j - i ≤ 4 → packLE 32 s i j =
      some ((List.range (j - i)).foldl (fun acc k => acc ^^^ ((s.getD (i + k) 0).setWidth 32 <<< (8 * k))) 0)) ∧
    (j - i ≤ 8 → packLE 64 s i j =
      some ((List.range (j - i)).foldl (fun acc k => acc ^^^ ((s.getD (i + k) 0).setWidth 64 <<< (8 * k))) 0))

/-- R98. The encodings of the final words, byte by byte, and that reading them gives the words back. -/
def Obligations.DigestWordsAreLittleEndian : Prop :=
  (∀ x : U32, le32 x = [x.extractLsb' 0 8, x.extractLsb' 8 8, x.extractLsb' 16 8, x.extractLsb' 24 8] ∧
    readLE32 (le32 x) 0 = some x) ∧
  (∀ x : U64, (le64 x).length = 8 ∧ (∀ k, k < 8 → (le64 x).getD k 0 = x.extractLsb' (8 * k) 8) ∧
    readLE64 (le64 x) 0 = some x)

/-! Mixers -/

/-- R21, R96, with R67, R74, R81 and R87: the initial state of each algorithm on its part of the seed. -/
def Obligations.InitialAccumulators : Prop :=
  ∀ aseed : U64,
    initAccs .xxh32 aseed = accs32 (aseed.setWidth 32 + 0x9E3779B1 + 0x85EBCA77) (aseed.setWidth 32 + 0x85EBCA77)
      (aseed.setWidth 32) (aseed.setWidth 32 - 0x9E3779B1) ∧
    initAccs .xxh64 aseed = ⟨aseed + 0x9E3779B185EBCA87 + 0xC2B2AE3D27D4EB4F, aseed + 0xC2B2AE3D27D4EB4F, aseed,
      aseed - 0x9E3779B185EBCA87⟩ ∧
    initAccs .mm3x64 aseed = ⟨(aseed.setWidth 32).setWidth 64, (aseed.setWidth 32).setWidth 64, 0, 0⟩ ∧
    initAccs .mm3x86 aseed = accs32 (aseed.setWidth 32) (aseed.setWidth 32) (aseed.setWidth 32) (aseed.setWidth 32) ∧
    (∀ (a : Alg) (x : U64), a ≠ .xxh64 → x.setWidth 32 = aseed.setWidth 32 → initAccs a x = initAccs a aseed)

/-- R82, R83. One block of XXH32: word `j` goes to lane `j+1`. -/
def Obligations.Xxh32Block : Prop :=
  let round : U32 → U32 → U32 := fun v w => (v + w * 0x85EBCA77).rotateLeft 13 * 0x9E3779B1
  ∀ v1 v2 v3 v4 w1 w2 w3 w4 : U32,
    mix .xxh32 (accs32 v1 v2 v3 v4) (le32 w1 ++ le32 w2 ++ le32 w3 ++ le32 w4) =
      some (accs32 (round v1 w1) (round v2 w2) (round v3 w3) (round v4 w4))

/-- R88, R90. One block of XXH64: 8-byte word `j` goes to lane `j+1`. -/
def Obligations.Xxh64Block : Prop :=
  let round : U64 → U64 → U64 := fun v w => (v + w * 0xC2B2AE3D27D4EB4F).rotateLeft 31 * 0x9E3779B185EBCA87
  ∀ v1 v2 v3 v4 w1 w2 w3 w4 : U64,
    mix .xxh64 ⟨v1, v2, v3, v4⟩ (le64 w1 ++ le64 w2 ++ le64 w3 ++ le64 w4) =
      some ⟨round v1 w1, round v2 w2, round v3 w3, round v4 w4⟩

/-- R75, R76. One block of MurmurHash3 x64_128: lane 2 adds the new `h1`. -/
def Obligations.Mm3x64Block : Prop :=
  ∀ h1 h2 k1 k2 : U64,
    let n1 := ((h1 ^^^ ((k1 * 0x87C37B91114253D5).rotateLeft 31 * 0x4CF5AD432745937F)).rotateLeft 27 + h2) * 5
      + 0x52DCE729
    let n2 := ((h2 ^^^ ((k2 * 0x4CF5AD432745937F).rotateLeft 33 * 0x87C37B91114253D5)).rotateLeft 31 + n1) * 5
      + 0x38495AB5
    mix .mm3x64 ⟨h1, h2, 0, 0⟩ (le64 k1 ++ le64 k2) = some ⟨n1, n2, 0, 0⟩

/-- R66, R68, R69. One block of MurmurHash3 x86_128: the lanes run in order, lane 4 adds the new `h1`. -/
def Obligations.Mm3x86Block : Prop :=
  ∀ h1 h2 h3 h4 k1 k2 k3 k4 : U32,
    let n1 := ((h1 ^^^ ((k1 * 0x239B961B).rotateLeft 15 * 0xAB0E9789)).rotateLeft 19 + h2) * 5 + 0x561CCD1B
    let n2 := ((h2 ^^^ ((k2 * 0xAB0E9789).rotateLeft 16 * 0x38B34AE5)).rotateLeft 17 + h3) * 5 + 0x0BCAA747
    let n3 := ((h3 ^^^ ((k3 * 0x38B34AE5).rotateLeft 17 * 0xA1E38B93)).rotateLeft 15 + h4) * 5 + 0x96CD1C35
    let n4 := ((h4 ^^^ ((k4 * 0xA1E38B93).rotateLeft 18 * 0x239B961B)).rotateLeft 13 + n1) * 5 + 0x32AC3B17
    mix .mm3x86 (accs32 h1 h2 h3 h4) (le32 k1 ++ le32 k2 ++ le32 k3 ++ le32 k4) = some (accs32 n1 n2 n3 n4)

/-- R84, R85. The finalization of XXH32 on a tail of 4-byte groups and then single bytes. -/
def Obligations.Xxh32Finalization : Prop :=
  let group : U32 → U32 → U32 := fun h w => (h + w * 0xC2B2AE3D).rotateLeft 17 * 0x27D4EB2F
  let single : U32 → Byte → U32 := fun h b => (h + b.setWidth 32 * 0x165667B1).rotateLeft 11 * 0x9E3779B1
  ∀ (v1 v2 v3 v4 : U32) (len : U64) (groups : List U32) (bytes : List Byte), groups.length ≤ 3 → bytes.length ≤ 3 →
    let start := (if 16 ≤ len.toNat then v1.rotateLeft 1 + v2.rotateLeft 7 + v3.rotateLeft 12 + v4.rotateLeft 18
      else v3 + 0x165667B1) + len.setWidth 32
    let h := bytes.foldl single (groups.foldl group start)
    let a := (h ^^^ (h >>> 15)) * 0x85EBCA77
    let b := (a ^^^ (a >>> 13)) * 0xC2B2AE3D
    fin .xxh32 (accs32 v1 v2 v3 v4) len ((groups.map le32).flatten ++ bytes) = some (le32 (b ^^^ (b >>> 16)))

/-- R89, R91 to R95. The finalization of XXH64 on a tail of 8-byte groups, at most one 4-byte group, and single bytes. -/
def Obligations.Xxh64Finalization : Prop :=
  let round : U64 → U64 → U64 := fun v w => (v + w * 0xC2B2AE3D27D4EB4F).rotateLeft 31 * 0x9E3779B185EBCA87
  let merge : U64 → U64 → U64 := fun h v => (h ^^^ round 0 v) * 0x9E3779B185EBCA87 + 0x85EBCA77C2B2AE63
  let group8 : U64 → U64 → U64 := fun h w =>
    (h ^^^ round 0 w).rotateLeft 27 * 0x9E3779B185EBCA87 + 0x85EBCA77C2B2AE63
  let group4 : U64 → U32 → U64 := fun h w =>
    (h ^^^ (w.setWidth 64 * 0x9E3779B185EBCA87)).rotateLeft 23 * 0xC2B2AE3D27D4EB4F + 0x165667B19E3779F9
  let single : U64 → Byte → U64 := fun h b =>
    (h ^^^ (b.setWidth 64 * 0x27D4EB2F165667C5)).rotateLeft 11 * 0x9E3779B185EBCA87
  ∀ (v1 v2 v3 v4 len : U64) (groups : List U64) (half : Option U32) (bytes : List Byte),
    groups.length ≤ 3 → bytes.length ≤ 3 →
    let start := (if 32 ≤ len.toNat
      then merge (merge (merge (merge
        (v1.rotateLeft 1 + v2.rotateLeft 7 + v3.rotateLeft 12 + v4.rotateLeft 18) v1) v2) v3) v4
      else v3 + 0x27D4EB2F165667C5) + len
    let h := bytes.foldl single (half.toList.foldl group4 (groups.foldl group8 start))
    let a := (h ^^^ (h >>> 33)) * 0xC2B2AE3D27D4EB4F
    let b := (a ^^^ (a >>> 29)) * 0x165667B19E3779F9
    fin .xxh64 ⟨v1, v2, v3, v4⟩ len ((groups.map le64).flatten ++ (half.toList.map le32).flatten ++ bytes) =
      some (le64 (b ^^^ (b >>> 32)))

/-- R77, R78, R79. The finalization of MurmurHash3 x64_128: a lane with no tail byte mixes the word 0, which leaves it. -/
def Obligations.Mm3x64Finalization : Prop :=
  let fmix : U64 → U64 := fun k =>
    let a := (k ^^^ (k >>> 33)) * 0xFF51AFD7ED558CCD
    let b := (a ^^^ (a >>> 33)) * 0xC4CEB9FE1A85EC53
    b ^^^ (b >>> 33)
  ∀ (h1 h2 len : U64) (t : List Byte), t.length < 16 →
    let a1 := h1 ^^^ ((leWord 64 (t.take 8) * 0x87C37B91114253D5).rotateLeft 31 * 0x4CF5AD432745937F) ^^^ len
    let a2 := h2 ^^^ ((leWord 64 (t.drop 8) * 0x4CF5AD432745937F).rotateLeft 33 * 0x87C37B91114253D5) ^^^ len
    let b1 := fmix (a1 + a2)
    let b2 := fmix (a2 + (a1 + a2))
    fin .mm3x64 ⟨h1, h2, 0, 0⟩ len t = some (le64 (b1 + b2) ++ le64 (b2 + (b1 + b2)))

/-- R70, R71, R72 and `90_conflicts.md` C1. The finalization of MurmurHash3 x86_128: a lane with no tail byte mixes the word 0,
which leaves it. -/
def Obligations.Mm3x86Finalization : Prop :=
  let fmix : U32 → U32 := fun k =>
    let a := (k ^^^ (k >>> 16)) * 0x85EBCA6B
    let b := (a ^^^ (a >>> 13)) * 0xC2B2AE35
    b ^^^ (b >>> 16)
  ∀ (h1 h2 h3 h4 : U32) (len : U64) (t : List Byte), t.length < 16 →
    let l := len.setWidth 32
    let a1 := h1 ^^^ ((leWord 32 (t.take 4) * 0x239B961B).rotateLeft 15 * 0xAB0E9789) ^^^ l
    let a2 := h2 ^^^ ((leWord 32 ((t.drop 4).take 4) * 0xAB0E9789).rotateLeft 16 * 0x38B34AE5) ^^^ l
    let a3 := h3 ^^^ ((leWord 32 ((t.drop 8).take 4) * 0x38B34AE5).rotateLeft 17 * 0xA1E38B93) ^^^ l
    let a4 := h4 ^^^ ((leWord 32 (t.drop 12) * 0xA1E38B93).rotateLeft 18 * 0x239B961B) ^^^ l
    let sa := a1 + a2 + a3 + a4
    let b1 := fmix sa
    let b2 := fmix (a2 + sa)
    let b3 := fmix (a3 + sa)
    let b4 := fmix (a4 + sa)
    let sb := b1 + b2 + b3 + b4
    fin .mm3x86 (accs32 h1 h2 h3 h4) len t =
      some (le32 sb ++ le32 (b2 + sb) ++ le32 (b3 + sb) ++ le32 (b4 + sb))
end

