-- ==== Sys2Proof/Laws/Bytes.lean ====
section
/-! SUPPORT. What the byte and word operations of `Machine/Bitops.lean` give: when a read answers, and which bit of a word is
which bit of which byte. -/
namespace Sys2Proof.Machine

theorem slice_eq_some_iff {s : List Byte} {i j : Nat} {t : List Byte} :
    slice s i j = some t ↔ i ≤ j ∧ j ≤ s.length ∧ t = (s.drop i).take (j - i) := by
  unfold slice
  split
  · rename_i h
    simp [h, eq_comm]
  · rename_i h
    simp only [reduceCtorEq, false_iff]
    rintro ⟨h1, h2, -⟩
    exact h ⟨h1, h2⟩

theorem slice_of_le {s : List Byte} {i j : Nat} (hij : i ≤ j) (hj : j ≤ s.length) :
    slice s i j = some ((s.drop i).take (j - i)) := slice_eq_some_iff.mpr ⟨hij, hj, rfl⟩

/-- Bit `k` of a little-endian word is bit `k % 8` of byte `k / 8`. -/
theorem getLsbD_leWord {n : Nat} (bs : List Byte) (k : Nat) :
    (leWord n bs).getLsbD k = (decide (k < n) && (bs.getD (k / 8) 0).getLsbD (k % 8)) := by
  induction bs generalizing k with
  | nil => simp [leWord]
  | cons b bs ih =>
    simp only [leWord, BitVec.getLsbD_or, BitVec.getLsbD_setWidth, BitVec.getLsbD_shiftLeft, ih]
    by_cases hk : k < 8
    · have h0 : k / 8 = 0 := by omega
      have h1 : k % 8 = k := by omega
      simp [h0, h1, hk]
    · have h0 : k / 8 = (k - 8) / 8 + 1 := by omega
      have h1 : (k - 8) % 8 = k % 8 := by omega
      have h2 : b.getLsbD k = false := BitVec.getLsbD_of_ge _ _ (by omega)
      simp only [h0, h1, h2, hk, List.getD_cons_succ]
      by_cases hn : k < n
      · have : k - 8 < n := by omega
        simp [hn, this]
      · simp [hn]

@[simp] theorem leBytes_length (n : Nat) {w : Nat} (x : BitVec w) : (leBytes n x).length = n := by simp [leBytes]

theorem leBytes_getD {n : Nat} {w : Nat} (x : BitVec w) {k : Nat} (hk : k < n) :
    (leBytes n x).getD k 0 = x.extractLsb' (8 * k) 8 := by
  simp [leBytes, List.getD, hk]

@[simp] theorem le32_length (x : U32) : (le32 x).length = 4 := leBytes_length 4 x

@[simp] theorem le64_length (x : U64) : (le64 x).length = 8 := leBytes_length 8 x

/-- Reading the bytes of a word gives the word back. -/
theorem leWord_leBytes {n : Nat} (x : BitVec (8 * n)) : leWord (8 * n) (leBytes n x) = x := by
  refine BitVec.eq_of_getLsbD_eq fun k hk => ?_
  have hk8 : k / 8 < n := by omega
  have e : 8 * (k / 8) + k % 8 = k := by omega
  have hm : k % 8 < 8 := by omega
  rw [getLsbD_leWord, leBytes_getD x hk8]
  simp [hk, hm, e]

@[simp] theorem leWord_le32 (x : U32) : leWord 32 (le32 x) = x := leWord_leBytes (n := 4) x

@[simp] theorem leWord_le64 (x : U64) : leWord 64 (le64 x) = x := leWord_leBytes (n := 8) x

/-- Once what `readLE32` can do: it answers where four bytes are there, and nowhere else. -/
theorem readLE32_eq_some_iff {s : List Byte} {o : Nat} {x : U32} :
    readLE32 s o = some x ↔ o + 4 ≤ s.length ∧ x = leWord 32 ((s.drop o).take 4) := by
  simp only [readLE32, Option.map_eq_some_iff, slice_eq_some_iff]
  constructor
  · rintro ⟨t, ⟨-, h, rfl⟩, rfl⟩
    exact ⟨h, by simp⟩
  · rintro ⟨h, rfl⟩
    exact ⟨_, ⟨by omega, h, rfl⟩, by simp⟩

/-- Once what `readLE64` can do. -/
theorem readLE64_eq_some_iff {s : List Byte} {o : Nat} {x : U64} :
    readLE64 s o = some x ↔ o + 8 ≤ s.length ∧ x = leWord 64 ((s.drop o).take 8) := by
  simp only [readLE64, Option.map_eq_some_iff, slice_eq_some_iff]
  constructor
  · rintro ⟨t, ⟨-, h, rfl⟩, rfl⟩
    exact ⟨h, by simp⟩
  · rintro ⟨h, rfl⟩
    exact ⟨_, ⟨by omega, h, rfl⟩, by simp⟩

theorem readLE32_of_le {s : List Byte} {o : Nat} (h : o + 4 ≤ s.length) :
    readLE32 s o = some (leWord 32 ((s.drop o).take 4)) := readLE32_eq_some_iff.mpr ⟨h, rfl⟩

theorem readLE64_of_le {s : List Byte} {o : Nat} (h : o + 8 ≤ s.length) :
    readLE64 s o = some (leWord 64 ((s.drop o).take 8)) := readLE64_eq_some_iff.mpr ⟨h, rfl⟩

/-- A word laid out after `p` and before `q` is read back at its place. -/
theorem readLE32_append (p q : List Byte) (x : U32) : readLE32 (p ++ (le32 x ++ q)) p.length = some x := by
  rw [readLE32_of_le (by simp)]
  simp

theorem readLE64_append (p q : List Byte) (x : U64) : readLE64 (p ++ (le64 x ++ q)) p.length = some x := by
  rw [readLE64_of_le (by simp)]
  simp

theorem packLE_of_le {n : Nat} {s : List Byte} {i j : Nat} (hij : i ≤ j) (hj : j ≤ s.length) (hn : j - i ≤ n / 8) :
    packLE n s i j = some (leWord n ((s.drop i).take (j - i))) := by
  simp [packLE, hn, slice_of_le hij hj]

end Sys2Proof.Machine
end

