-- ==== Sys2Proof/Laws/Decode.lean ====
section
/-! SUPPORT. The bit facts behind the decoder: what the two masks of R48 keep, and which bit of a command word is which. -/
namespace Sys2Proof

/-- The mask of the four commands with no operand keeps the whole word. -/
@[simp] theorem and_fullMask (w : U32) : w &&& 0xFFFFFFFF#32 = w := BitVec.and_allOnes

/-- The fields of a command word (R46). -/
theorem getLsbD_commandWord (op : BitVec 4) (c : BitVec 3) (k : Nat) :
    (commandWord op c).getLsbD k =
      if k < 4 then op.getLsbD k else if k < 7 then c.getLsbD (k - 4) else false := by
  simp only [commandWord, BitVec.getLsbD_append]
  by_cases h1 : k < 4
  · simp [h1]
  · by_cases h2 : k - 4 < 3
    · simp [h1, h2, show k < 7 by omega]
    · simp [h1, h2, show ¬k < 7 by omega]

@[simp] theorem algField_commandWord (op : BitVec 4) (c : BitVec 3) : algField (commandWord op c) = c := by
  refine BitVec.eq_of_getLsbD_eq fun k hk => ?_
  simp [algField, getLsbD_commandWord, hk, show 4 + k < 7 by omega]

/-- What the mask of `CFG` tests (R48): `OP` is 1, the reserved bits are 0, and bit 6 is 0. -/
theorem and_cfgMask_iff (w : U32) :
    w &&& 0xFFFFFFCF#32 = 0x00000001#32 ↔ (algField w).toNat < 4 ∧ w = commandWord 1 (algField w) := by
  constructor
  · intro h
    have hb : ∀ i, (w &&& 0xFFFFFFCF#32).getLsbD i = (0x00000001#32).getLsbD i := fun i => by rw [h]
    refine ⟨?_, BitVec.eq_of_getLsbD_eq fun i hi => ?_⟩
    · have h6 : (algField w).getLsbD 2 = false := by
        have := hb 6
        simp at this
        simpa [algField] using this
      revert h6
      generalize algField w = c
      revert c
      decide
    · have := hb i
      rw [getLsbD_commandWord]
      interval_cases i <;> simp [algField] at this ⊢ <;> assumption
  · rintro ⟨h1, h2⟩
    rw [h2]
    generalize algField w = c at h1
    revert c
    decide

end Sys2Proof
end

