-- ==== Sys2Proof/Laws/Engine.lean ====
section
/-! SUPPORT. When the mixers and finalizations answer, how long their digests are, and that they keep the layout of the
accumulators (R22). -/
namespace Sys2Proof.Machine

theorem blockSize_pos (a : Alg) : 0 < blockSize a := by cases a <;> decide

theorem blockSize_le (a : Alg) : blockSize a ≤ 32 := by cases a <;> decide

theorem blockSize_dvd (a : Alg) : blockSize a ∣ 2 ^ 64 := by cases a <;> decide

theorem digestLength_le (a : Alg) : digestLength a ≤ 16 := by cases a <;> decide

@[simp] theorem lane32_setWidth (x : U32) : lane32 (x.setWidth 64) = x := by
  simp [lane32, BitVec.setWidth_setWidth_of_le]

@[simp] theorem ofCode_code (a : Alg) : Alg.ofCode a.code = some a := by cases a <;> rfl

theorem ofCode_eq_some_iff {c : BitVec 3} {a : Alg} : Alg.ofCode c = some a ↔ c = a.code := by
  revert c
  cases a <;> decide

theorem ofCode_eq_none_iff {c : BitVec 3} : Alg.ofCode c = none ↔ 4 ≤ c.toNat := by
  revert c
  decide

theorem accLayout_accs32 (a b c d : U32) : accLayout .xxh32 (accs32 a b c d) := by
  simp [accLayout, accs32]

/-- `MIX` answers exactly on blocks of the algorithm's size (R61). -/
theorem mix_isSome_iff (a : Alg) (acc : Accs) (blk : List Byte) :
    (mix a acc blk).isSome ↔ blk.length = blockSize a := by
  unfold mix
  split
  · rename_i h
    cases a <;> simp only [blockSize] at h <;>
      simp [mixer, xxh32Block, xxh64Block, mm3x64Block, mm3x86Block, readLE32_of_le, readLE64_of_le, h, blockSize]
  · rename_i h
    simp [h]

/-- `MIX` leaves the unused bits and words of `ACC` at 0 (R22). -/
theorem mix_layout {a : Alg} {acc acc' : Accs} {blk : List Byte} (h : mix a acc blk = some acc') :
    accLayout a acc' := by
  unfold mix at h
  split at h
  · cases a
    · simp only [mixer, xxh32Block, Option.bind_eq_bind, Option.bind_eq_some_iff, Option.pure_def, Option.some.injEq] at h
      obtain ⟨_, -, _, -, _, -, _, -, rfl⟩ := h
      exact accLayout_accs32 ..
    · trivial
    · simp only [mixer, mm3x64Block, Option.bind_eq_bind, Option.bind_eq_some_iff, Option.pure_def, Option.some.injEq] at h
      obtain ⟨_, -, _, -, rfl⟩ := h
      exact ⟨rfl, rfl⟩
    · simp only [mixer, mm3x86Block, Option.bind_eq_bind, Option.bind_eq_some_iff, Option.pure_def, Option.some.injEq] at h
      obtain ⟨_, -, _, -, _, -, _, -, rfl⟩ := h
      exact accLayout_accs32 ..
  · cases h

/-- `INIT` leaves the unused bits and words of `ACC` at 0 (R22). -/
theorem initAccs_layout (a : Alg) (aseed : U64) : accLayout a (initAccs a aseed) := by
  cases a
  · exact accLayout_accs32 ..
  · trivial
  · exact ⟨rfl, rfl⟩
  · exact accLayout_accs32 ..

/-- The group loop of R85 answers, whatever its fuel, from any `p` inside the tail. -/
theorem xxh32Groups_isSome (t : List Byte) (fuel p : Nat) (h : U32) : ∃ r, xxh32Groups t fuel p h = some r := by
  induction fuel generalizing p h with
  | zero => exact ⟨_, rfl⟩
  | succ fuel ih =>
    rw [xxh32Groups]
    split
    · rename_i hp
      simpa [readLE32_of_le hp] using ih ..
    · exact ⟨_, rfl⟩

/-- The group loop of R95 answers. -/
theorem xxh64Groups_isSome (t : List Byte) (fuel p : Nat) (h : U64) : ∃ r, xxh64Groups t fuel p h = some r := by
  induction fuel generalizing p h with
  | zero => exact ⟨_, rfl⟩
  | succ fuel ih =>
    rw [xxh64Groups]
    split
    · rename_i hp
      simpa [readLE64_of_le hp] using ih ..
    · exact ⟨_, rfl⟩

theorem xxh64Half_isSome (t : List Byte) (p : Nat) (h : U64) : ∃ r, xxh64Half t p h = some r := by
  rw [xxh64Half]
  split
  · rename_i hp
    exact ⟨_, by rw [readLE32_of_le hp]; rfl⟩
  · exact ⟨_, rfl⟩

theorem mm3x86TailLane_isSome (kmix : U32 → U32) (lo : Nat) (t : List Byte) (h : U32) :
    ∃ r, mm3x86TailLane kmix lo t h = some r := by
  rw [mm3x86TailLane]
  split
  · rename_i hl
    exact ⟨_, by rw [packLE_of_le (by omega) (by omega) (by omega)]; rfl⟩
  · exact ⟨_, rfl⟩

/-- `FIN` answers exactly on a tail shorter than a block (R97), with a digest of `DL(ALG)` bytes. -/
theorem fin_eq_some_of_lt {a : Alg} {t : List Byte} (acc : Accs) (len : U64) (ht : t.length < blockSize a) :
    ∃ d, fin a acc len t = some d ∧ d.length = digestLength a := by
  rw [fin, if_pos ht]
  cases a
  · obtain ⟨⟨h, p⟩, e⟩ := xxh32Groups_isSome t t.length 0 (xxh32Start acc len)
    exact ⟨_, by simp [finalizer, xxh32Final, e]; rfl, by simp [digestLength]⟩
  · obtain ⟨⟨h, p⟩, e⟩ := xxh64Groups_isSome t t.length 0 (xxh64Start acc len)
    obtain ⟨⟨h', p'⟩, e'⟩ := xxh64Half_isSome t p h
    exact ⟨_, by simp [finalizer, xxh64Final, e, e']; rfl, by simp [digestLength]⟩
  · simp only [blockSize] at ht
    have e2 : ∃ r, mm3x64TailLane2 t acc.w1 = some r := by
      rw [mm3x64TailLane2]
      split
      · exact ⟨_, by rw [packLE_of_le (by omega) (by omega) (by omega)]; rfl⟩
      · exact ⟨_, rfl⟩
    have e1 : ∃ r, mm3x64TailLane1 t acc.w0 = some r := by
      rw [mm3x64TailLane1]
      split
      · exact ⟨_, by rw [packLE_of_le (by omega) (by omega) (by omega)]; rfl⟩
      · exact ⟨_, rfl⟩
    obtain ⟨r2, e2⟩ := e2
    obtain ⟨r1, e1⟩ := e1
    exact ⟨_, by simp [finalizer, mm3x64Final, e2, e1]; rfl, by simp [digestLength]⟩
  · obtain ⟨r1, e1⟩ := mm3x86TailLane_isSome kmix86Lane1 0 t (lane32 acc.w0)
    obtain ⟨r2, e2⟩ := mm3x86TailLane_isSome kmix86Lane2 4 t (lane32 acc.w1)
    obtain ⟨r3, e3⟩ := mm3x86TailLane_isSome kmix86Lane3 8 t (lane32 acc.w2)
    obtain ⟨r4, e4⟩ := mm3x86TailLane_isSome kmix86Lane4 12 t (lane32 acc.w3)
    exact ⟨_, by simp [finalizer, mm3x86Final, e1, e2, e3, e4]; rfl, by simp [digestLength]⟩

theorem fin_eq_none_of_le {a : Alg} {t : List Byte} (acc : Accs) (len : U64) (ht : blockSize a ≤ t.length) :
    fin a acc len t = none := by
  rw [fin, if_neg (by omega)]

end Sys2Proof.Machine
end

