-- ==== Sys2Proof/Laws/Memory.lean ====
section
/-! SUPPORT. The laws of the data window: read after write, that every write keeps the canonical form and the window's bound,
and what a range read answers. -/
namespace Sys2Proof.Machine

theorem dinByte_eq_none_of_lt {m : List Host.Cell} {a : Nat} (h : ∀ c ∈ m, a < c.1) : dinByte m a = none := by
  induction m with
  | nil => rfl
  | cons c m ih =>
    obtain ⟨b, v⟩ := c
    have hb : a < b := h (b, v) (by simp)
    rw [dinByte, if_neg (by omega)]
    exact ih fun c hc => h c (by simp [hc])

/-- Read after one byte's write: the byte written, and every other byte as before. -/
@[simp] theorem dinByte_dinSet (m : List Host.Cell) (a : Nat) (v : Byte) (x : Nat) :
    dinByte (dinSet m a v) x = if x = a then some v else dinByte m x := by
  induction m with
  | nil => by_cases h : x = a <;> simp [dinSet, dinByte, h]
  | cons c m ih =>
    obtain ⟨b, w⟩ := c
    simp only [dinSet]
    split
    · by_cases h : x = a <;> simp [dinByte, h]
    · split
      · rename_i hab
        subst hab
        by_cases h : x = a <;> simp [dinByte, h]
      · simp only [dinByte, ih]
        by_cases h : x = b
        · subst h
          simp_all [eq_comm]
        · simp [h]

/-- The offsets a write lists are the old ones and its own. -/
theorem mem_dinSet {m : List Host.Cell} {a : Nat} {v : Byte} {c : Host.Cell} (h : c ∈ dinSet m a v) :
    c = (a, v) ∨ c ∈ m := by
  induction m with
  | nil => simpa [dinSet] using h
  | cons d m ih =>
    obtain ⟨b, w⟩ := d
    simp only [dinSet] at h
    split at h
    · simpa using h
    · split at h
      · rcases List.mem_cons.mp h with h | h
        · exact .inl h
        · exact .inr (by simp [h])
      · rcases List.mem_cons.mp h with h | h
        · exact .inr (by simp [h])
        · rcases ih h with h | h
          · exact .inl h
          · exact .inr (by simp [h])

/-- A write keeps the canonical form. -/
theorem dinSet_keeps_wf {m : List Host.Cell} (h : dinWf m) (a : Nat) (v : Byte) : dinWf (dinSet m a v) := by
  induction m with
  | nil => simp [dinSet]
  | cons d m ih =>
    obtain ⟨b, w⟩ := d
    obtain ⟨h1, h2⟩ := List.pairwise_cons.mp h
    simp only [dinSet]
    split
    · rename_i hab
      refine List.pairwise_cons.mpr ⟨fun c hc => ?_, h⟩
      rcases List.mem_cons.mp hc with rfl | hc
      · exact hab
      · exact Nat.lt_trans hab (h1 c hc)
    · split
      · rename_i hab
        subst hab
        exact List.pairwise_cons.mpr ⟨h1, h2⟩
      · refine List.pairwise_cons.mpr ⟨fun c hc => ?_, ih h2⟩
        rcases mem_dinSet hc with rfl | hc
        · simp only
          omega
        · exact h1 c hc

/-- Once what a store of several bytes does: byte `x` is the stored one where the range covers it. -/
theorem dinByte_dinStore (m : List Host.Cell) (a : Nat) (vs : List Byte) (x : Nat) :
    dinByte (dinStore m a vs) x = if a ≤ x ∧ x < a + vs.length then some (vs.getD (x - a) 0) else dinByte m x := by
  induction vs generalizing m a with
  | nil => simp [dinStore]
  | cons v vs ih =>
    rw [dinStore, ih, dinByte_dinSet]
    by_cases hx : x = a
    · subst hx
      rw [if_neg (by omega), if_pos rfl, if_pos (by simp)]
      simp
    · by_cases hr : a + 1 ≤ x ∧ x < a + 1 + vs.length
      · rw [if_pos hr, if_pos (by simp only [List.length_cons]; omega)]
        have e : x - a = x - (a + 1) + 1 := by omega
        simp [e]
      · rw [if_neg hr, if_neg hx, if_neg (by simp only [List.length_cons]; omega)]

theorem dinStore_keeps_wf {m : List Host.Cell} (h : dinWf m) (a : Nat) (vs : List Byte) : dinWf (dinStore m a vs) := by
  induction vs generalizing m a with
  | nil => exact h
  | cons v vs ih => exact ih (dinSet_keeps_wf h a v) (a + 1)

theorem mem_dinStore {m : List Host.Cell} {a : Nat} {vs : List Byte} {c : Host.Cell} (h : c ∈ dinStore m a vs) :
    (a ≤ c.1 ∧ c.1 < a + vs.length) ∨ c ∈ m := by
  induction vs generalizing m a with
  | nil => exact .inr h
  | cons v vs ih =>
    simp only [List.length_cons]
    rcases ih h with h | h
    · exact .inl (by omega)
    · rcases mem_dinSet h with rfl | h
      · exact .inl (by simp)
      · exact .inr h

/-- Read after `MemWrite` (R37). -/
theorem dinByte_memWrite (m : List Host.Cell) (a n : Nat) (v : U32) (x : Nat) :
    dinByte (memWrite m a n v) x = if a ≤ x ∧ x < a + n then some (v.extractLsb' (8 * (x - a)) 8) else dinByte m x := by
  rw [memWrite, dinByte_dinStore, leBytes_length]
  split
  · rw [leBytes_getD _ (by omega)]
  · rfl

/-- `MemWrite` keeps the canonical form and stays inside its range. -/
theorem memWrite_keeps_wf {m : List Host.Cell} (h : dinWf m) (a n : Nat) (v : U32) : dinWf (memWrite m a n v) :=
  dinStore_keeps_wf h a _

theorem mem_memWrite {m : List Host.Cell} {a n : Nat} {v : U32} {c : Host.Cell} (h : c ∈ memWrite m a n v) :
    c.1 < a + n ∨ c ∈ m := by
  rcases mem_dinStore h with h | h
  · exact .inl (by simpa using h.2)
  · exact .inr h

/-- Once what a range read does: it answers the bytes where all of them are written. -/
theorem memRead_eq_some_iff {m : List Host.Cell} {a n : Nat} {bs : List Byte} :
    memRead m a n = some bs ↔ bs.length = n ∧ ∀ k, k < n → dinByte m (a + k) = some (bs.getD k 0) := by
  induction n generalizing a bs with
  | zero => cases bs <;> simp [memRead]
  | succ n ih =>
    simp only [memRead, Option.bind_eq_some_iff, Option.map_eq_some_iff, ih]
    constructor
    · rintro ⟨b, hb, bs', ⟨hl, h⟩, rfl⟩
      refine ⟨by simp [hl], fun k hk => ?_⟩
      cases k with
      | zero => simpa using hb
      | succ k =>
        have := h k (by omega)
        simpa [Nat.add_assoc, Nat.add_comm 1 k] using this
    · rintro ⟨hl, h⟩
      cases bs with
      | nil => simp at hl
      | cons b bs =>
        refine ⟨b, by simpa using h 0 (by omega), bs, ⟨by simpa using hl, fun k hk => ?_⟩, rfl⟩
        have := h (k + 1) (by omega)
        simpa [Nat.add_assoc, Nat.add_comm 1 k] using this

theorem memRead_length {m : List Host.Cell} {a n : Nat} {bs : List Byte} (h : memRead m a n = some bs) : bs.length = n :=
  (memRead_eq_some_iff.mp h).1

/-- A range read has no answer exactly where a byte of the range is unwritten (R39). -/
theorem memRead_eq_none_iff {m : List Host.Cell} {a n : Nat} :
    memRead m a n = none ↔ ∃ k, k < n ∧ dinByte m (a + k) = none := by
  induction n generalizing a with
  | zero => simp [memRead]
  | succ n ih =>
    cases hb : dinByte m a with
    | none => simp only [memRead, hb, Option.bind_none, true_iff]; exact ⟨0, by omega, by simpa using hb⟩
    | some b =>
      simp only [memRead, hb, Option.bind_some, Option.map_eq_none_iff, ih]
      constructor
      · rintro ⟨k, hk, h⟩
        exact ⟨k + 1, by omega, by rw [← h]; congr 1; omega⟩
      · rintro ⟨k, hk, h⟩
        cases k with
        | zero => simp [hb] at h
        | succ k => exact ⟨k, by omega, by rw [← h]; congr 1; omega⟩

/-- Byte `k` of a byte file after an overwrite. -/
theorem overwrite_getElem {n : Nat} (file : Vector Byte n) (i : Nat) (bs : List Byte) (k : Nat) (hk : k < n) :
    (overwrite file i bs)[k] = if i ≤ k ∧ k < i + bs.length then bs.getD (k - i) 0 else file[k] := by
  simp [overwrite]

/-- The head of a byte file after writing `bs` at `i`: the old bytes below `i`, then `bs`. -/
theorem overwrite_take {n : Nat} (file : Vector Byte n) (i : Nat) (bs : List Byte) (h : i + bs.length ≤ n) :
    (overwrite file i bs).toList.take (i + bs.length) = file.toList.take i ++ bs := by
  apply List.ext_getElem
  · simp; omega
  · intro k h1 h2
    simp only [List.length_take, Vector.length_toList] at h1
    rw [List.getElem_take, Vector.getElem_toList, overwrite_getElem _ _ _ _ (by omega)]
    by_cases hk : k < i
    · rw [if_neg (by omega), List.getElem_append_left (by simp; omega)]
      simp
    · rw [if_pos (by omega), List.getElem_append_right (by simp; omega)]
      have e : min i n = i := by omega
      simp [e, List.getD, List.getElem?_eq_getElem (show k - i < bs.length by omega)]

/-- The window right after reset has the canonical form: it lists nothing. -/
theorem resetWith_dinWf (p : Config.Params) : dinWf (State.resetWith p).din := .nil

end Sys2Proof.Machine
end

