-- ==== Sys2Proof/Laws/State.lean ====
section
/-! SUPPORT. One lemma per field of `State` for each named update of it, so that no proof unfolds a record update. -/
namespace Sys2Proof.Machine

section
variable (s : State)

@[simp] theorem State.raise_params (f : ArchFault) (w : U32) : (s.raise f w).params = s.params := rfl
@[simp] theorem State.raise_seedLo (f : ArchFault) (w : U32) : (s.raise f w).seedLo = s.seedLo := rfl
@[simp] theorem State.raise_seedHi (f : ArchFault) (w : U32) : (s.raise f w).seedHi = s.seedHi := rfl
@[simp] theorem State.raise_argAddr (f : ArchFault) (w : U32) : (s.raise f w).argAddr = s.argAddr := rfl
@[simp] theorem State.raise_argLen (f : ArchFault) (w : U32) : (s.raise f w).argLen = s.argLen := rfl
@[simp] theorem State.raise_alg (f : ArchFault) (w : U32) : (s.raise f w).alg = s.alg := rfl
@[simp] theorem State.raise_aseed (f : ArchFault) (w : U32) : (s.raise f w).aseed = s.aseed := rfl
@[simp] theorem State.raise_acc (f : ArchFault) (w : U32) : (s.raise f w).acc = s.acc := rfl
@[simp] theorem State.raise_totalLen (f : ArchFault) (w : U32) : (s.raise f w).totalLen = s.totalLen := rfl
@[simp] theorem State.raise_pbuf (f : ArchFault) (w : U32) : (s.raise f w).pbuf = s.pbuf := rfl
@[simp] theorem State.raise_pcount (f : ArchFault) (w : U32) : (s.raise f w).pcount = s.pcount := rfl
@[simp] theorem State.raise_final (f : ArchFault) (w : U32) : (s.raise f w).final = s.final := rfl
@[simp] theorem State.raise_err (f : ArchFault) (w : U32) : (s.raise f w).err = some f := rfl
@[simp] theorem State.raise_errCmd (f : ArchFault) (w : U32) : (s.raise f w).errCmd = w := rfl
@[simp] theorem State.raise_digest (f : ArchFault) (w : U32) : (s.raise f w).digest = s.digest := rfl
@[simp] theorem State.raise_din (f : ArchFault) (w : U32) : (s.raise f w).din = s.din := rfl
@[simp] theorem State.raise_inReset (f : ArchFault) (w : U32) : (s.raise f w).inReset = s.inReset := rfl
@[simp] theorem State.raise_faultRecord (f : ArchFault) (w : U32) : (s.raise f w).faultRecord = true := rfl
@[simp] theorem State.raise_script (f : ArchFault) (w : U32) : (s.raise f w).script = s.script := rfl
@[simp] theorem State.raise_reads (f : ArchFault) (w : U32) : (s.raise f w).reads = s.reads := rfl

end

section
variable (s : State)

@[simp] theorem State.softReset_params : (s.softReset).params = s.params := rfl
@[simp] theorem State.softReset_seedLo : (s.softReset).seedLo = s.seedLo := rfl
@[simp] theorem State.softReset_seedHi : (s.softReset).seedHi = s.seedHi := rfl
@[simp] theorem State.softReset_argAddr : (s.softReset).argAddr = s.argAddr := rfl
@[simp] theorem State.softReset_argLen : (s.softReset).argLen = s.argLen := rfl
@[simp] theorem State.softReset_alg : (s.softReset).alg = s.alg := rfl
@[simp] theorem State.softReset_aseed : (s.softReset).aseed = s.aseed := rfl
@[simp] theorem State.softReset_acc : (s.softReset).acc = initAccs s.alg s.aseed := rfl
@[simp] theorem State.softReset_totalLen : (s.softReset).totalLen = 0 := rfl
@[simp] theorem State.softReset_pbuf : (s.softReset).pbuf = Vector.replicate 32 0 := rfl
@[simp] theorem State.softReset_pcount : (s.softReset).pcount = 0 := rfl
@[simp] theorem State.softReset_final : (s.softReset).final = false := rfl
@[simp] theorem State.softReset_err : (s.softReset).err = none := rfl
@[simp] theorem State.softReset_errCmd : (s.softReset).errCmd = 0 := rfl
@[simp] theorem State.softReset_digest : (s.softReset).digest = Vector.replicate 16 0 := rfl
@[simp] theorem State.softReset_din : (s.softReset).din = s.din := rfl
@[simp] theorem State.softReset_inReset : (s.softReset).inReset = s.inReset := rfl
@[simp] theorem State.softReset_faultRecord : (s.softReset).faultRecord = s.faultRecord := rfl
@[simp] theorem State.softReset_script : (s.softReset).script = s.script := rfl
@[simp] theorem State.softReset_reads : (s.softReset).reads = s.reads := rfl

end

section
variable (s : State)

@[simp] theorem State.returned_params (v : U32) : (s.returned v).params = s.params := rfl
@[simp] theorem State.returned_seedLo (v : U32) : (s.returned v).seedLo = s.seedLo := rfl
@[simp] theorem State.returned_seedHi (v : U32) : (s.returned v).seedHi = s.seedHi := rfl
@[simp] theorem State.returned_argAddr (v : U32) : (s.returned v).argAddr = s.argAddr := rfl
@[simp] theorem State.returned_argLen (v : U32) : (s.returned v).argLen = s.argLen := rfl
@[simp] theorem State.returned_alg (v : U32) : (s.returned v).alg = s.alg := rfl
@[simp] theorem State.returned_aseed (v : U32) : (s.returned v).aseed = s.aseed := rfl
@[simp] theorem State.returned_acc (v : U32) : (s.returned v).acc = s.acc := rfl
@[simp] theorem State.returned_totalLen (v : U32) : (s.returned v).totalLen = s.totalLen := rfl
@[simp] theorem State.returned_pbuf (v : U32) : (s.returned v).pbuf = s.pbuf := rfl
@[simp] theorem State.returned_pcount (v : U32) : (s.returned v).pcount = s.pcount := rfl
@[simp] theorem State.returned_final (v : U32) : (s.returned v).final = s.final := rfl
@[simp] theorem State.returned_err (v : U32) : (s.returned v).err = s.err := rfl
@[simp] theorem State.returned_errCmd (v : U32) : (s.returned v).errCmd = s.errCmd := rfl
@[simp] theorem State.returned_digest (v : U32) : (s.returned v).digest = s.digest := rfl
@[simp] theorem State.returned_din (v : U32) : (s.returned v).din = s.din := rfl
@[simp] theorem State.returned_inReset (v : U32) : (s.returned v).inReset = s.inReset := rfl
@[simp] theorem State.returned_faultRecord (v : U32) : (s.returned v).faultRecord = s.faultRecord := rfl
@[simp] theorem State.returned_script (v : U32) : (s.returned v).script = s.script := rfl
@[simp] theorem State.returned_reads (v : U32) : (s.returned v).reads = s.reads ++ [v] := rfl

end

section
variable (s : State)

@[simp] theorem State.addLength_params (n : U32) : (s.addLength n).params = s.params := rfl
@[simp] theorem State.addLength_seedLo (n : U32) : (s.addLength n).seedLo = s.seedLo := rfl
@[simp] theorem State.addLength_seedHi (n : U32) : (s.addLength n).seedHi = s.seedHi := rfl
@[simp] theorem State.addLength_argAddr (n : U32) : (s.addLength n).argAddr = s.argAddr := rfl
@[simp] theorem State.addLength_argLen (n : U32) : (s.addLength n).argLen = s.argLen := rfl
@[simp] theorem State.addLength_alg (n : U32) : (s.addLength n).alg = s.alg := rfl
@[simp] theorem State.addLength_aseed (n : U32) : (s.addLength n).aseed = s.aseed := rfl
@[simp] theorem State.addLength_acc (n : U32) : (s.addLength n).acc = s.acc := rfl
@[simp] theorem State.addLength_totalLen (n : U32) : (s.addLength n).totalLen = s.totalLen + n.setWidth 64 := rfl
@[simp] theorem State.addLength_pbuf (n : U32) : (s.addLength n).pbuf = s.pbuf := rfl
@[simp] theorem State.addLength_pcount (n : U32) : (s.addLength n).pcount = s.pcount := rfl
@[simp] theorem State.addLength_final (n : U32) : (s.addLength n).final = s.final := rfl
@[simp] theorem State.addLength_err (n : U32) : (s.addLength n).err = s.err := rfl
@[simp] theorem State.addLength_errCmd (n : U32) : (s.addLength n).errCmd = s.errCmd := rfl
@[simp] theorem State.addLength_digest (n : U32) : (s.addLength n).digest = s.digest := rfl
@[simp] theorem State.addLength_din (n : U32) : (s.addLength n).din = s.din := rfl
@[simp] theorem State.addLength_inReset (n : U32) : (s.addLength n).inReset = s.inReset := rfl
@[simp] theorem State.addLength_faultRecord (n : U32) : (s.addLength n).faultRecord = s.faultRecord := rfl
@[simp] theorem State.addLength_script (n : U32) : (s.addLength n).script = s.script := rfl
@[simp] theorem State.addLength_reads (n : U32) : (s.addLength n).reads = s.reads := rfl

end

section
variable (s : State)

@[simp] theorem State.hardwareReset_params : (s.hardwareReset).params = s.params := rfl
@[simp] theorem State.hardwareReset_seedLo : (s.hardwareReset).seedLo = 0 := rfl
@[simp] theorem State.hardwareReset_seedHi : (s.hardwareReset).seedHi = 0 := rfl
@[simp] theorem State.hardwareReset_argAddr : (s.hardwareReset).argAddr = 0 := rfl
@[simp] theorem State.hardwareReset_argLen : (s.hardwareReset).argLen = 0 := rfl
@[simp] theorem State.hardwareReset_alg : (s.hardwareReset).alg = .xxh32 := rfl
@[simp] theorem State.hardwareReset_aseed : (s.hardwareReset).aseed = 0 := rfl
@[simp] theorem State.hardwareReset_acc : (s.hardwareReset).acc = { w0 := 0x24234428, w1 := 0x85EBCA77, w2 := 0x00000000, w3 := 0x61C8864F } := rfl
@[simp] theorem State.hardwareReset_totalLen : (s.hardwareReset).totalLen = 0 := rfl
@[simp] theorem State.hardwareReset_pbuf : (s.hardwareReset).pbuf = Vector.replicate 32 0 := rfl
@[simp] theorem State.hardwareReset_pcount : (s.hardwareReset).pcount = 0 := rfl
@[simp] theorem State.hardwareReset_final : (s.hardwareReset).final = false := rfl
@[simp] theorem State.hardwareReset_err : (s.hardwareReset).err = none := rfl
@[simp] theorem State.hardwareReset_errCmd : (s.hardwareReset).errCmd = 0 := rfl
@[simp] theorem State.hardwareReset_digest : (s.hardwareReset).digest = Vector.replicate 16 0 := rfl
@[simp] theorem State.hardwareReset_din : (s.hardwareReset).din = [] := rfl
@[simp] theorem State.hardwareReset_inReset : (s.hardwareReset).inReset = true := rfl
@[simp] theorem State.hardwareReset_faultRecord : (s.hardwareReset).faultRecord = s.faultRecord := rfl
@[simp] theorem State.hardwareReset_script : (s.hardwareReset).script = s.script := rfl
@[simp] theorem State.hardwareReset_reads : (s.hardwareReset).reads = s.reads := rfl

end

section
variable (s : State)

@[simp] theorem State.withCommand_params (w : U32) : (s.withCommand w).params = s.params := rfl
@[simp] theorem State.withCommand_seedLo (w : U32) : (s.withCommand w).seedLo = s.seedLo := rfl
@[simp] theorem State.withCommand_seedHi (w : U32) : (s.withCommand w).seedHi = s.seedHi := rfl
@[simp] theorem State.withCommand_argAddr (w : U32) : (s.withCommand w).argAddr = s.argAddr := rfl
@[simp] theorem State.withCommand_argLen (w : U32) : (s.withCommand w).argLen = s.argLen := rfl
@[simp] theorem State.withCommand_alg (w : U32) : (s.withCommand w).alg = s.alg := rfl
@[simp] theorem State.withCommand_aseed (w : U32) : (s.withCommand w).aseed = s.aseed := rfl
@[simp] theorem State.withCommand_acc (w : U32) : (s.withCommand w).acc = s.acc := rfl
@[simp] theorem State.withCommand_totalLen (w : U32) : (s.withCommand w).totalLen = s.totalLen := rfl
@[simp] theorem State.withCommand_pbuf (w : U32) : (s.withCommand w).pbuf = s.pbuf := rfl
@[simp] theorem State.withCommand_pcount (w : U32) : (s.withCommand w).pcount = s.pcount := rfl
@[simp] theorem State.withCommand_final (w : U32) : (s.withCommand w).final = s.final := rfl
@[simp] theorem State.withCommand_err (w : U32) : (s.withCommand w).err = s.err := rfl
@[simp] theorem State.withCommand_errCmd (w : U32) : (s.withCommand w).errCmd = s.errCmd := rfl
@[simp] theorem State.withCommand_digest (w : U32) : (s.withCommand w).digest = s.digest := rfl
@[simp] theorem State.withCommand_din (w : U32) : (s.withCommand w).din = s.din := rfl
@[simp] theorem State.withCommand_inReset (w : U32) : (s.withCommand w).inReset = false := rfl
@[simp] theorem State.withCommand_faultRecord (w : U32) : (s.withCommand w).faultRecord = s.faultRecord := rfl
@[simp] theorem State.withCommand_script (w : U32) : (s.withCommand w).script = .write (s.params.base + Reg.offset .cmd) 4 w :: s.script := rfl
@[simp] theorem State.withCommand_reads (w : U32) : (s.withCommand w).reads = s.reads := rfl

end

end Sys2Proof.Machine
end

