-- ==== Sys2Proof/Laws/Streaming.lean ====
section
/-! SUPPORT. What the streaming buffer does, said once: the loop of R60 mixes the full blocks in order and leaves the rest, and
a whole `UPDATE` is one of six cases. -/
namespace Sys2Proof.Machine

/-- The range check in exact arithmetic: the 33-bit sum does not wrap (R62). -/
theorem outOfRange_iff (s : State) :
    s.outOfRange = true ↔ s.params.dinSize < s.argAddr.toNat + s.argLen.toNat := by
  have h1 := s.argAddr.isLt
  have h2 := s.argLen.isLt
  have : s.rangeEnd.toNat = s.argAddr.toNat + s.argLen.toNat := by
    simp only [State.rangeEnd, BitVec.toNat_add, BitVec.toNat_setWidth]
    omega
  simp [State.outOfRange, this]

theorem outOfRange_eq_false_iff (s : State) :
    s.outOfRange = false ↔ s.argAddr.toNat + s.argLen.toNat ≤ s.params.dinSize := by
  rw [← Bool.not_eq_true, outOfRange_iff]
  omega

theorem locked_iff (s : State) : s.locked = true ↔ s.err ≠ none := by
  simp [State.locked, Option.isSome_iff_ne_none]

theorem locked_eq_false_iff (s : State) : s.locked = false ↔ s.err = none := by
  simp [State.locked]

theorem pending_length {s : State} (h : s.pcount.toNat ≤ 32) : s.pending.length = s.pcount.toNat := by
  simp [State.pending, h]

theorem fullBlocks_of_lt {n : Nat} {b : List Byte} (h : b.length < n) : fullBlocks n b = [] := by
  simp [fullBlocks, Nat.div_eq_of_lt h]

theorem leftover_of_lt {n : Nat} {b : List Byte} (h : b.length < n) : leftover n b = b := by
  simp [leftover, Nat.div_eq_of_lt h]

theorem leftover_length (n : Nat) (b : List Byte) : (leftover n b).length = b.length % n := by
  simp only [leftover, List.length_drop]
  have := Nat.div_add_mod b.length n
  rw [Nat.mul_comm] at this
  omega

/-- The first full block of a stream that has one. -/
theorem fullBlocks_of_le {n : Nat} (hn : 0 < n) {b : List Byte} (h : n ≤ b.length) :
    fullBlocks n b = b.take n :: fullBlocks n (b.drop n) := by
  have e : b.length / n = (b.length - n) / n + 1 := by
    rw [← Nat.sub_add_cancel h, Nat.add_div_right _ hn]; simp
  simp only [fullBlocks, e, List.range_succ_eq_map, List.map_cons, List.map_map, List.length_drop]
  simp only [Nat.zero_mul, List.drop_zero, List.cons.injEq, true_and]
  refine List.map_congr_left fun k _ => ?_
  simp [List.drop_drop, Nat.succ_mul, Nat.add_comm]

theorem leftover_of_le {n : Nat} (hn : 0 < n) {b : List Byte} (h : n ≤ b.length) :
    leftover n b = leftover n (b.drop n) := by
  have e : b.length / n = (b.length - n) / n + 1 := by
    rw [← Nat.sub_add_cancel h, Nat.add_div_right _ hn]; simp
  simp [leftover, e, List.drop_drop, Nat.add_mul, Nat.add_comm]

/-- Cutting a longer stream goes on from what the shorter one left. -/
theorem fullBlocks_append {n : Nat} (hn : 0 < n) (x y : List Byte) :
    fullBlocks n (x ++ y) = fullBlocks n x ++ fullBlocks n (leftover n x ++ y) ∧
      leftover n (x ++ y) = leftover n (leftover n x ++ y) := by
  induction hk : x.length using Nat.strong_induction_on generalizing x with
  | _ k ih =>
    by_cases h : n ≤ x.length
    · obtain ⟨h1, h2⟩ := ih (x.drop n).length (by simp only [List.length_drop]; omega) (x.drop n) rfl
      have hxy : n ≤ (x ++ y).length := by simp only [List.length_append]; omega
      have hd : (x ++ y).drop n = x.drop n ++ y := List.drop_append_of_le_length h
      have ht : (x ++ y).take n = x.take n := List.take_append_of_le_length h
      rw [fullBlocks_of_le hn hxy, leftover_of_le hn hxy, fullBlocks_of_le hn h, leftover_of_le hn h, hd, ht, h1, h2]
      exact ⟨rfl, rfl⟩
    · rw [fullBlocks_of_lt (Nat.not_le.mp h), leftover_of_lt (Nat.not_le.mp h)]
      exact ⟨rfl, rfl⟩

/-- Once what step 3 of R60 does, with fuel enough: the full blocks mixed in order, and the rest left. -/
theorem mixBlocks_eq (a : Alg) (fuel : Nat) (acc : Accs) (b : List Byte) (hf : b.length ≤ fuel) :
    mixBlocks a fuel acc b =
      ((fullBlocks (blockSize a) b).foldlM (mix a) acc).map fun acc' => (acc', leftover (blockSize a) b) := by
  induction fuel generalizing acc b with
  | zero =>
    have hb : b.length < blockSize a := by have := blockSize_pos a; omega
    rw [mixBlocks, fullBlocks_of_lt hb, leftover_of_lt hb]
    rfl
  | succ fuel ih =>
    rw [mixBlocks]
    split
    · rename_i h
      rw [fullBlocks_of_le (blockSize_pos a) h, leftover_of_le (blockSize_pos a) h, List.foldlM_cons]
      simp only [Option.bind_eq_bind]
      cases mix a acc (b.take (blockSize a)) with
      | none => rfl
      | some acc' =>
        simp only [Option.bind_some]
        exact ih acc' _ (by have := blockSize_pos a; simp only [List.length_drop]; omega)
    · rename_i h
      rw [fullBlocks_of_lt (by omega), leftover_of_lt (by omega)]
      rfl

/-- Folding `MIX` over full blocks always answers. -/
theorem mixAll_isSome (a : Alg) (acc : Accs) (b : List Byte) :
    ∃ acc', (fullBlocks (blockSize a) b).foldlM (mix a) acc = some acc' := by
  have key : ∀ (bs : List (List Byte)) (acc : Accs), (∀ x ∈ bs, x.length = blockSize a) →
      ∃ acc', bs.foldlM (mix a) acc = some acc' := by
    intro bs
    induction bs with
    | nil => intro acc _; exact ⟨acc, rfl⟩
    | cons x bs ih =>
      intro acc h
      obtain ⟨acc', e⟩ := Option.isSome_iff_exists.mp ((mix_isSome_iff a acc x).mpr (h x (by simp)))
      obtain ⟨acc'', e'⟩ := ih acc' fun y hy => h y (by simp [hy])
      exact ⟨acc'', by rw [List.foldlM_cons, e]; exact e'⟩
  refine key _ _ fun x hx => ?_
  simp only [fullBlocks, List.mem_map, List.mem_range] at hx
  obtain ⟨k, hk, rfl⟩ := hx
  have h1 : (k + 1) * blockSize a ≤ b.length := by
    calc (k + 1) * blockSize a ≤ b.length / blockSize a * blockSize a := Nat.mul_le_mul_right _ hk
      _ ≤ b.length := Nat.div_mul_le_self ..
  rw [Nat.succ_mul] at h1
  simp only [List.length_take, List.length_drop]
  omega

/-- Step 1 of R60: the bytes only fill the pending buffer. -/
theorem absorb_short {s : State} {b : List Byte} (h : s.pcount.toNat + b.length < blockSize s.alg) :
    absorb s b = some { s with
      pbuf := overwrite s.pbuf s.pcount.toNat b
      pcount := BitVec.ofNat 6 (s.pcount.toNat + b.length) } := by
  rw [absorb, if_neg (by omega), if_pos h]

/-- Step 2 of R60 mixes the first block of the stream that the pending bytes and `b` make, where there are pending bytes. -/
theorem mixPending_spec {s : State} {b : List Byte} (hp : s.pcount.toNat < blockSize s.alg)
    (h : blockSize s.alg ≤ s.pcount.toNat + b.length) :
    ∃ acc rest, mixPending s b = some (acc, rest) ∧
      (fullBlocks (blockSize s.alg) (s.pending ++ b)).foldlM (mix s.alg) s.acc =
        (fullBlocks (blockSize s.alg) rest).foldlM (mix s.alg) acc ∧
      leftover (blockSize s.alg) (s.pending ++ b) = leftover (blockSize s.alg) rest := by
  have hbs := blockSize_le s.alg
  have hpos := blockSize_pos s.alg
  have hpl : s.pending.length = s.pcount.toNat := pending_length (by omega)
  by_cases hp0 : 0 < s.pcount.toNat
  · have hneed : (s.pending ++ b.take (blockSize s.alg - s.pcount.toNat)).length = blockSize s.alg := by
      simp [hpl]; omega
    obtain ⟨acc, e⟩ := Option.isSome_iff_exists.mp ((mix_isSome_iff s.alg s.acc _).mpr hneed)
    have hle : blockSize s.alg ≤ (s.pending ++ b).length := by simp [hpl]; omega
    have htake : (s.pending ++ b).take (blockSize s.alg) = s.pending ++ b.take (blockSize s.alg - s.pcount.toNat) := by
      rw [List.take_append, hpl, List.take_of_length_le (by omega)]
    have hdrop : (s.pending ++ b).drop (blockSize s.alg) = b.drop (blockSize s.alg - s.pcount.toNat) := by
      rw [List.drop_append, hpl, List.drop_of_length_le (by omega), List.nil_append]
    refine ⟨acc, b.drop (blockSize s.alg - s.pcount.toNat), ?_, ?_, ?_⟩
    · simp only [mixPending, if_pos hp0, e, Option.map_some]
    · rw [fullBlocks_of_le hpos hle, List.foldlM_cons, htake, e, hdrop]
      rfl
    · rw [leftover_of_le hpos hle, hdrop]
  · have hnil : s.pending = [] := List.eq_nil_of_length_eq_zero (by omega)
    refine ⟨s.acc, b, ?_, by rw [hnil]; rfl, by rw [hnil]; rfl⟩
    simp only [mixPending, if_neg hp0]

/-- Steps 2 to 4 of R60: the full blocks of the stream mixed in order, the rest kept. -/
theorem absorb_long {s : State} {b : List Byte} (hp : s.pcount.toNat < blockSize s.alg)
    (h : blockSize s.alg ≤ s.pcount.toNat + b.length) :
    ∃ acc, (fullBlocks (blockSize s.alg) (s.pending ++ b)).foldlM (mix s.alg) s.acc = some acc ∧
      absorb s b = some { s with
        acc := acc
        pbuf := overwrite s.pbuf 0 (leftover (blockSize s.alg) (s.pending ++ b))
        pcount := BitVec.ofNat 6 ((s.pcount.toNat + b.length) % blockSize s.alg) } := by
  have hpl : s.pending.length = s.pcount.toNat := pending_length (by have := blockSize_le s.alg; omega)
  obtain ⟨acc1, rest, e1, hfold, hleft⟩ := mixPending_spec hp h
  obtain ⟨acc, e⟩ := mixAll_isSome s.alg acc1 rest
  have hl : (leftover (blockSize s.alg) rest).length = (s.pcount.toNat + b.length) % blockSize s.alg := by
    rw [← hleft, leftover_length]
    simp [hpl]
  refine ⟨acc, hfold.trans e, ?_⟩
  rw [absorb, if_neg (by omega), if_neg (by omega), e1, hleft, ← hl]
  simp only [Option.bind_some]
  rw [mixBlocks_eq _ _ _ _ (Nat.le_refl _), e]
  rfl

/-- Once what `absorb` does where R25 holds, by the stream that the pending bytes and `b` make: it mixes its full blocks and
keeps the rest pending. -/
theorem absorb_spec {s : State} (hp : s.pcount.toNat < blockSize s.alg) (b : List Byte) :
    ∃ s', absorb s b = some s' ∧
      (fullBlocks (blockSize s.alg) (s.pending ++ b)).foldlM (mix s.alg) s.acc = some s'.acc ∧
      s'.pending = leftover (blockSize s.alg) (s.pending ++ b) ∧
      s'.pcount.toNat = (s.pcount.toNat + b.length) % blockSize s.alg ∧
      s' = { s with acc := s'.acc, pbuf := s'.pbuf, pcount := s'.pcount } := by
  have hbs := blockSize_le s.alg
  have hpl : s.pending.length = s.pcount.toNat := pending_length (by omega)
  by_cases hlt : s.pcount.toNat + b.length < blockSize s.alg
  · have hstream : (s.pending ++ b).length < blockSize s.alg := by simp [hpl, hlt]
    refine ⟨_, absorb_short hlt, by rw [fullBlocks_of_lt hstream]; rfl, ?_, ?_, rfl⟩
    · rw [leftover_of_lt hstream]
      simp only [State.pending, BitVec.toNat_ofNat]
      rw [Nat.mod_eq_of_lt (by omega)]
      exact overwrite_take _ _ _ (by omega)
    · simp only [BitVec.toNat_ofNat]
      rw [Nat.mod_eq_of_lt (by omega), Nat.mod_eq_of_lt hlt]
  · obtain ⟨acc, hf, e⟩ := absorb_long hp (Nat.not_lt.mp hlt)
    have hmod : (s.pcount.toNat + b.length) % blockSize s.alg < blockSize s.alg := Nat.mod_lt _ (blockSize_pos _)
    have hl : (leftover (blockSize s.alg) (s.pending ++ b)).length = (s.pcount.toNat + b.length) % blockSize s.alg := by
      rw [leftover_length]
      simp [hpl]
    refine ⟨_, e, hf, ?_, ?_, rfl⟩
    · show List.take _ _ = _
      simp only [BitVec.toNat_ofNat]
      rw [Nat.mod_eq_of_lt (by omega), ← hl]
      simpa using overwrite_take s.pbuf 0 (leftover (blockSize s.alg) (s.pending ++ b)) (by omega)
    · simp only [BitVec.toNat_ofNat]
      rw [Nat.mod_eq_of_lt (by omega)]

/-- Where R25 does not hold, `absorb` has no answer. -/
theorem absorb_eq_none {s : State} (hp : blockSize s.alg ≤ s.pcount.toNat) (b : List Byte) : absorb s b = none := by
  rw [absorb, if_pos hp]

/-- The state an `UPDATE` that reads the bytes `b` leaves, by what it does to the stream. -/
structure Absorbed (s : State) (b : List Byte) (t : State) : Prop where
  acc : (fullBlocks (blockSize s.alg) (s.pending ++ b)).foldlM (mix s.alg) s.acc = some t.acc
  pending : t.pending = leftover (blockSize s.alg) (s.pending ++ b)
  pcount : t.pcount.toNat = (s.pcount.toNat + b.length) % blockSize s.alg
  totalLen : t.totalLen = s.totalLen + BitVec.ofNat 64 b.length
  frame : t = { s with totalLen := t.totalLen, acc := t.acc, pbuf := t.pbuf, pcount := t.pcount }

/-- `UPDATE` where its checks pass and there is a byte to read: it adds the length and absorbs the bytes. -/
theorem execUpdate_of_pos {s : State} {b : List Byte} (h : s.Takes b) (h0 : 0 < b.length) :
    exec .update s =
      match absorb (s.addLength s.argLen) b with
      | none => .fault .contract
      | some s' => .next s' := by
  have hl := memRead_length h.bytes
  have h0' : s.argLen.toNat ≠ 0 := by omega
  cases ha : absorb (s.addLength s.argLen) b <;>
    simp [exec, execUpdate, h.unlocked, h.running, (outOfRange_eq_false_iff s).mpr h.inRange, h.bytes, h0', ha]

/-- `UPDATE` where its checks pass, its bytes are written and R25 holds. -/
theorem execUpdate_of_takes {s : State} {b : List Byte} (h : s.Takes b) (hp : s.pcount.toNat < blockSize s.alg) :
    ∃ t, exec .update s = .next t ∧ Absorbed s b t := by
  have hlen := memRead_length h.bytes
  have hr := (outOfRange_eq_false_iff s).mpr h.inRange
  by_cases h0 : s.argLen.toNat = 0
  · have hb : b = [] := List.eq_nil_of_length_eq_zero (by omega)
    have hpl : s.pending.length < blockSize s.alg := by
      rw [pending_length (by have := blockSize_le s.alg; omega)]; exact hp
    subst hb
    refine ⟨s, by simp [exec, execUpdate, h.unlocked, h.running, hr, h0], ?_, ?_, ?_, ?_, rfl⟩
    · rw [List.append_nil, fullBlocks_of_lt hpl]; rfl
    · rw [List.append_nil, leftover_of_lt hpl]
    · simp [Nat.mod_eq_of_lt hp]
    · simp
  · obtain ⟨t, e, hf, hpend, hpc, hfr⟩ :=
      absorb_spec (s := s.addLength s.argLen) hp b
    refine ⟨t, by rw [execUpdate_of_pos h (by omega), e], hf, hpend, hpc, ?_, ?_⟩
    · rw [hfr]
      simp only [hlen]
      apply BitVec.eq_of_toNat_eq
      simp [BitVec.toNat_setWidth]
    · rw [hfr]
      rfl

/-- Once what `UPDATE` can do, its checks in the order of R113. -/
theorem execUpdate_cases (s : State) :
    (s.err ≠ none ∧ exec .update s = .next s) ∨
    (s.err = none ∧ s.final = true ∧ exec .update s = .next (s.raise .misuse 0x00000003)) ∨
    (s.err = none ∧ s.final = false ∧ s.params.dinSize < s.argAddr.toNat + s.argLen.toNat ∧
      exec .update s = .next (s.raise .bounds 0x00000003)) ∨
    (s.err = none ∧ s.final = false ∧ s.argAddr.toNat + s.argLen.toNat ≤ s.params.dinSize ∧
      memRead s.din s.argAddr.toNat s.argLen.toNat = none ∧ exec .update s = .fault .unwrittenDin) ∨
    (∃ b, s.Takes b ∧ blockSize s.alg ≤ s.pcount.toNat ∧
      exec .update s = if s.argLen.toNat = 0 then .next s else .fault .contract) ∨
    (∃ b t, s.Takes b ∧ s.pcount.toNat < blockSize s.alg ∧ exec .update s = .next t ∧ Absorbed s b t) := by
  cases hl : s.locked with
  | true => exact .inl ⟨(locked_iff s).mp hl, by simp [exec, execUpdate, hl]⟩
  | false =>
    have he := (locked_eq_false_iff s).mp hl
    cases hf : s.final with
    | true => exact .inr (.inl ⟨he, rfl, by simp [exec, execUpdate, hl, hf]; rfl⟩)
    | false =>
      cases hr : s.outOfRange with
      | true =>
        exact .inr (.inr (.inl ⟨he, rfl, (outOfRange_iff s).mp hr, by simp [exec, execUpdate, hl, hf, hr]; rfl⟩))
      | false =>
        have hin := (outOfRange_eq_false_iff s).mp hr
        refine .inr (.inr (.inr ?_))
        cases hm : memRead s.din s.argAddr.toNat s.argLen.toNat with
        | none =>
          have h0 : s.argLen.toNat ≠ 0 := by
            intro h0
            rw [h0] at hm
            cases hm
          exact .inl ⟨he, rfl, hin, rfl, by simp [exec, execUpdate, hl, hf, hr, h0, hm]⟩
        | some b =>
          have ht : s.Takes b := ⟨hl, hf, hin, hm⟩
          by_cases hp : s.pcount.toNat < blockSize s.alg
          · obtain ⟨t, e, ha⟩ := execUpdate_of_takes ht hp
            exact .inr (.inr ⟨b, t, ht, hp, e, ha⟩)
          · refine .inr (.inl ⟨b, ht, by omega, ?_⟩)
            by_cases h0 : s.argLen.toNat = 0
            · simp [exec, execUpdate, hl, hf, hr, h0]
            · simp [exec, execUpdate, hl, hf, hr, h0, hm,
                absorb_eq_none (s := s.addLength s.argLen) (Nat.not_lt.mp hp)]

end Sys2Proof.Machine
end

