-- ==== Sys2Proof/Laws/Exec.lean ====
section
/-! SUPPORT. What the lifecycle commands do, and what a next state of any command can be, said once. -/
namespace Sys2Proof.Machine

@[simp] theorem exec_nop (s : State) : exec .nop s = .next s := rfl

@[simp] theorem exec_reset (s : State) : exec .reset s = .next s.softReset := rfl

/-- `CFG` with the code of an algorithm (R100). -/
@[simp] theorem exec_cfg_code (a : Alg) (s : State) :
    exec (.cfg a.code) s = .next ({ s with alg := a, aseed := s.seedArg } : State).softReset := by
  simp [exec, execCfg]

/-- `CFG` with a reserved code is an illegal word. -/
theorem exec_cfg_reserved {c : BitVec 3} (h : 4 ≤ c.toNat) (s : State) :
    exec (.cfg c) s = .next (s.raiseIllegal (encode (.cfg c))) := by
  simp [exec, execCfg, ofCode_eq_none_iff.mpr h]

theorem raiseIllegal_cases (s : State) (w : U32) :
    (s.err ≠ none ∧ s.raiseIllegal w = s) ∨ (s.err = none ∧ s.raiseIllegal w = s.raise .illegal w) := by
  unfold State.raiseIllegal
  split
  · rename_i h
    exact .inl ⟨(locked_iff s).mp h, rfl⟩
  · rename_i h
    exact .inr ⟨(locked_eq_false_iff s).mp (by simpa using h), rfl⟩

/-- The digest file: the digest, then zero bytes (R102). -/
theorem digestFile_toList {d : List Byte} (h : d.length ≤ 16) :
    (digestFile d).toList = d ++ List.replicate (16 - d.length) 0 := by
  apply List.ext_getElem
  · simp; omega
  · intro k h1 h2
    simp only [Vector.length_toList] at h1
    rw [Vector.getElem_toList]
    simp only [digestFile, overwrite_getElem]
    by_cases hk : k < d.length
    · rw [if_pos ⟨by omega, by omega⟩, List.getElem_append_left hk]
      simp [List.getD, hk]
    · rw [if_neg (by omega), List.getElem_append_right (by omega)]
      simp

/-- Byte `k` of the digest file past the digest is 0. -/
theorem digestFile_getElem_of_le {d : List Byte} {k : Nat} (hk : k < 16) (h : d.length ≤ k) :
    (digestFile d)[k] = 0 := by
  simp only [digestFile, overwrite_getElem]
  rw [if_neg (by omega)]
  simp

/-- Once what `FINALIZE` can do (R102, R103, R114). -/
theorem execFinalize_cases (s : State) :
    (s.err ≠ none ∧ exec .finalize s = .next s) ∨
    (s.err = none ∧ s.final = true ∧ exec .finalize s = .next s) ∨
    (s.err = none ∧ s.final = false ∧ blockSize s.alg ≤ s.pending.length ∧ exec .finalize s = .fault .contract) ∨
    (s.err = none ∧ s.final = false ∧ s.pending.length < blockSize s.alg ∧
      ∃ d, fin s.alg s.acc s.totalLen s.pending = some d ∧ d.length = digestLength s.alg ∧
        exec .finalize s = .next { s with digest := digestFile d, final := true }) := by
  cases hl : s.locked with
  | true => exact .inl ⟨(locked_iff s).mp hl, by simp [exec, execFinalize, hl]⟩
  | false =>
    have he := (locked_eq_false_iff s).mp hl
    cases hf : s.final with
    | true => exact .inr (.inl ⟨he, rfl, by simp [exec, execFinalize, hf]⟩)
    | false =>
      by_cases hp : s.pending.length < blockSize s.alg
      · obtain ⟨d, e, hd⟩ := fin_eq_some_of_lt s.acc s.totalLen hp
        exact .inr (.inr (.inr ⟨he, rfl, hp, d, e, hd, by simp [exec, execFinalize, hl, hf, e]⟩))
      · exact .inr (.inr (.inl ⟨he, rfl, by omega,
          by simp [exec, execFinalize, hl, hf, fin_eq_none_of_le s.acc s.totalLen (Nat.not_lt.mp hp)]⟩))

/-- Once what a next state of any command can be: unchanged, a raised fault with the command's own word, a soft reset (after `CFG`'s two writes or not),
an absorbed range, or a digest. -/
theorem exec_next_cases {i : Instr} {s t : State} (h : exec i s = .next t) :
    t = s ∨
    (s.err = none ∧ ∃ f, t = s.raise f (encode i) ∧ errCmdFits (some f) (encode i)) ∨
    (∃ a seed, t = ({ s with alg := a, aseed := seed } : State).softReset ∧
      (i = .reset ∧ a = s.alg ∧ seed = s.aseed ∨ i = .cfg a.code ∧ seed = s.seedArg)) ∨
    (i = .update ∧ ∃ b, s.Takes b ∧ s.pcount.toNat < blockSize s.alg ∧ Absorbed s b t) ∨
    (i = .finalize ∧ s.err = none ∧ s.final = false ∧ ∃ d, fin s.alg s.acc s.totalLen s.pending = some d ∧
      d.length = digestLength s.alg ∧ t = { s with digest := digestFile d, final := true }) := by
  cases i with
  | nop =>
    cases h
    exact .inl rfl
  | cfg c =>
    cases ha : Alg.ofCode c with
    | some a =>
      obtain rfl := ofCode_eq_some_iff.mp ha
      rw [exec_cfg_code] at h
      cases h
      exact .inr (.inr (.inl ⟨a, _, rfl, .inr ⟨rfl, rfl⟩⟩))
    | none =>
      have hc := ofCode_eq_none_iff.mp ha
      rw [exec_cfg_reserved hc] at h
      cases h
      rcases raiseIllegal_cases s (encode (.cfg c)) with ⟨-, e⟩ | ⟨he, e⟩
      · exact .inl e
      · refine .inr (.inl ⟨he, .illegal, e, ?_⟩)
        exact (by decide : ∀ c : BitVec 3, 4 ≤ c.toNat → decode (encode (.cfg c)) = .illegal) c hc
  | reset =>
    cases h
    exact .inr (.inr (.inl ⟨s.alg, s.aseed, rfl, .inl ⟨rfl, rfl, rfl⟩⟩))
  | update =>
    rcases execUpdate_cases s with ⟨-, e⟩ | ⟨he, -, e⟩ | ⟨he, -, -, e⟩ | ⟨-, -, -, -, e⟩ | ⟨b, -, -, e⟩ | ⟨b, t', ht, hp, e, ha⟩
    · rw [e] at h
      cases h
      exact .inl rfl
    · rw [e] at h
      cases h
      exact .inr (.inl ⟨he, .misuse, rfl, rfl⟩)
    · rw [e] at h
      cases h
      exact .inr (.inl ⟨he, .bounds, rfl, rfl⟩)
    · rw [e] at h
      cases h
    · rw [e] at h
      split at h
      · cases h
        exact .inl rfl
      · cases h
    · rw [e] at h
      cases h
      exact .inr (.inr (.inr (.inl ⟨rfl, b, ht, hp, ha⟩)))
  | finalize =>
    rcases execFinalize_cases s with ⟨-, e⟩ | ⟨-, -, e⟩ | ⟨-, -, -, e⟩ | ⟨he, hf, -, d, e1, e2, e⟩
    · rw [e] at h
      cases h
      exact .inl rfl
    · rw [e] at h
      cases h
      exact .inl rfl
    · rw [e] at h
      cases h
    · rw [e] at h
      cases h
      exact .inr (.inr (.inr (.inr ⟨rfl, he, hf, d, e1, e2, rfl⟩)))

/-- No command touches the host's registers, the window, the parameters or the run (R29, R101, R125). -/
theorem exec_frame {i : Instr} {s t : State} (h : exec i s = .next t) :
    t.params = s.params ∧ t.seedLo = s.seedLo ∧ t.seedHi = s.seedHi ∧ t.argAddr = s.argAddr ∧ t.argLen = s.argLen ∧
      t.din = s.din ∧ t.inReset = s.inReset ∧ t.script = s.script ∧ t.reads = s.reads := by
  rcases exec_next_cases h with rfl | ⟨-, f, rfl, -⟩ | ⟨a, seed, rfl, -⟩ | ⟨-, b, -, -, ha⟩ | ⟨-, -, -, d, -, -, rfl⟩
  · simp
  · simp
  · simp
  · rw [ha.frame]
    simp
  · simp

end Sys2Proof.Machine
end

