-- ==== Sys2Proof/Laws/Port.lean ====
section
/-! SUPPORT. The port: which accesses there are, and what one action at the port can do, said once. -/
namespace Sys2Proof.Machine

theorem decodes_iff {p : Config.Params} {addr : Nat} :
    decodes p addr = true ↔ p.base ≤ addr ∧ addr < p.base + 0x100 + p.dinSize := decide_eq_true_iff

theorem locateOffset_register_iff {p : Config.Params} {o width r : Nat} :
    locateOffset p o width = .ok (.register r) ↔ o = r ∧ r < 0x100 ∧ width = 4 ∧ r % 4 = 0 := by
  have ha : Config.registerArea = 0x100 := rfl
  unfold locateOffset
  constructor
  · intro h
    split at h
    · split at h
      · cases h
        omega
      · cases h
    · split at h <;> cases h
  · rintro ⟨rfl, h1, rfl, h2⟩
    rw [if_pos (by omega), if_pos ⟨rfl, h2⟩]

theorem locateOffset_window_iff {p : Config.Params} {o width a n : Nat} :
    locateOffset p o width = .ok (.window a n) ↔
      o = 0x100 + a ∧ n = width ∧ (width = 1 ∨ width = 2 ∨ width = 4) ∧ a + width ≤ p.dinSize := by
  have ha : Config.registerArea = 0x100 := rfl
  unfold locateOffset
  constructor
  · intro h
    split at h
    · split at h <;> cases h
    · split at h
      · simp only [Except.ok.injEq, Target.window.injEq] at h
        omega
      · cases h
  · rintro ⟨rfl, rfl, h1, h2⟩
    have h3 : 0x100 + a - Config.registerArea = a := by omega
    rw [if_neg (by omega), h3, if_pos ⟨h1, h2⟩]

/-- The register accesses of R35. -/
theorem locate_register_iff {p : Config.Params} {addr width o : Nat} :
    locate p addr width = .ok (.register o) ↔ addr = p.base + o ∧ o < 0x100 ∧ width = 4 ∧ o % 4 = 0 := by
  unfold locate
  split
  · rename_i hd
    have := decodes_iff.mp hd
    rw [locateOffset_register_iff]
    omega
  · rename_i hd
    rw [decodes_iff] at hd
    simp only [reduceCtorEq, false_iff]
    omega

/-- The window accesses of R35. -/
theorem locate_window_iff {p : Config.Params} {addr width a n : Nat} :
    locate p addr width = .ok (.window a n) ↔
      addr = p.base + 0x100 + a ∧ n = width ∧ (width = 1 ∨ width = 2 ∨ width = 4) ∧ a + width ≤ p.dinSize := by
  unfold locate
  split
  · rename_i hd
    have := decodes_iff.mp hd
    rw [locateOffset_window_iff]
    omega
  · rename_i hd
    rw [decodes_iff] at hd
    simp only [reduceCtorEq, false_iff]
    omega

/-- The accesses the block does not define are refused, by one of two names (R34, R35). -/
theorem locate_error {p : Config.Params} {addr width : Nat} {r : Refusal} (h : locate p addr width = .error r) :
    r = .notDecoded ∧ decodes p addr = false ∨ r = .accessForm ∧ decodes p addr = true := by
  unfold locate at h
  split at h
  · rename_i hd
    refine .inr ⟨?_, hd⟩
    unfold locateOffset at h
    split at h
    · split at h <;> cases h
      rfl
    · split at h <;> cases h
      rfl
  · rename_i hd
    cases h
    exact .inl ⟨rfl, by simpa using hd⟩

@[simp] theorem locate_register (p : Config.Params) (r : Reg) :
    locate p (p.base + r.offset) 4 = .ok (.register r.offset) :=
  locate_register_iff.mpr ⟨rfl, by cases r <;> decide, rfl, by cases r <;> decide⟩

@[simp] theorem ofOffset_offset (r : Reg) : Reg.ofOffset r.offset = some r := by cases r <;> rfl

theorem locate_window {p : Config.Params} {a n : Nat} (hn : n = 1 ∨ n = 2 ∨ n = 4) (h : a + n ≤ p.dinSize) :
    locate p (p.base + 0x100 + a) n = .ok (.window a n) := locate_window_iff.mpr ⟨rfl, rfl, hn, h⟩

/-- A write to `CMD` issues the command (R107). -/
@[simp] theorem hostWrite_cmd (w : U32) (s : State) :
    hostWrite (s.params.base + Reg.offset .cmd) 4 w s = issue w s := by
  simp [hostWrite]

/-- Once what a command issue can do: the command decoded, or an illegal word. -/
theorem issue_cases (w : U32) (s : State) :
    (∃ i, decode w = .command i ∧ issue w s = exec i s) ∨
    (decode w = .illegal ∧ issue w s = .next (s.raiseIllegal w)) := by
  unfold issue
  cases decode w with
  | command i => exact .inl ⟨i, rfl, rfl⟩
  | illegal => exact .inr ⟨rfl, rfl⟩

/-- Once what the next state of a host read can be: one more value returned, nothing else (R41). -/
theorem hostRead_next {addr width : Nat} {s t : State} (h : hostRead addr width s = .next t) :
    (∃ o, locate s.params addr width = .ok (.register o) ∧ t = s.returned (s.readOffset o)) ∨
    (∃ a n bs, locate s.params addr width = .ok (.window a n) ∧ memRead s.din a n = some bs ∧
      t = s.returned (leWord 32 bs)) := by
  unfold hostRead at h
  split at h
  · cases h
  · cases h
    exact .inl ⟨_, ‹_›, rfl⟩
  · split at h
    · cases h
    · cases h
      exact .inr ⟨_, _, _, ‹_›, ‹_›, rfl⟩

/-- Once what the next state of a host write can be. -/
theorem hostWrite_next {addr width : Nat} {v : U32} {s t : State} (h : hostWrite addr width v s = .next t) :
    (locate s.params addr width = .ok (.register (Reg.offset .cmd)) ∧ issue v s = .next t) ∨
    (∃ o r, locate s.params addr width = .ok (.register o) ∧ Reg.ofOffset o = some r ∧ r ≠ .cmd ∧ t = s.writeReg r v) ∨
    (∃ o, locate s.params addr width = .ok (.register o) ∧ Reg.ofOffset o = none ∧ t = s) ∨
    (∃ a n, locate s.params addr width = .ok (.window a n) ∧ t = { s with din := memWrite s.din a n v }) := by
  unfold hostWrite at h
  split at h
  · cases h
  · rename_i o hl
    split at h
    · rename_i ho
      have : o = 0 := by
        unfold Reg.ofOffset at ho
        split at ho <;> simp_all
      subst this
      exact .inl ⟨hl, h⟩
    · rename_i r hr ho
      cases h
      exact .inr (.inl ⟨o, r, hl, ho, hr, rfl⟩)
    · rename_i ho
      cases h
      exact .inr (.inr (.inl ⟨o, hl, ho, rfl⟩))
  · cases h
    exact .inr (.inr (.inr ⟨_, _, ‹_›, rfl⟩))

/-- Once what the next state of an action at the port can be. -/
theorem portEvent_next {e : PortEvent} {s t : State} (h : portEvent e s = .next t) :
    (∃ addr width, e = .read addr width ∧ s.inReset = false ∧ hostRead addr width s = .next t) ∨
    (∃ addr width v, e = .write addr width v ∧ s.inReset = false ∧ hostWrite addr width v s = .next t) ∨
    (e = .resetAssert ∧ t = s.hardwareReset) ∨
    (e = .resetRelease ∧ t = { s with inReset := false }) := by
  cases e with
  | read addr width =>
    cases hr : s.inReset with
    | true => simp [portEvent, hr] at h
    | false => exact .inl ⟨addr, width, rfl, rfl, by simpa [portEvent, hr] using h⟩
  | write addr width v =>
    cases hr : s.inReset with
    | true => simp [portEvent, hr] at h
    | false => exact .inr (.inl ⟨addr, width, v, rfl, rfl, by simpa [portEvent, hr] using h⟩)
  | resetAssert =>
    cases h
    exact .inr (.inr (.inl ⟨rfl, rfl⟩))
  | resetRelease =>
    cases h
    exact .inr (.inr (.inr ⟨rfl, rfl⟩))

/-- A step takes the first action of the script, or nothing where there is none (R8, R131). -/
theorem step_cases (s : State) :
    (s.script = [] ∧ step s = .next s) ∨
    (∃ e rest, s.script = e :: rest ∧ step s = portEvent e { s with script := rest }) := by
  unfold step takeNext
  cases s.script with
  | nil => exact .inl ⟨rfl, rfl⟩
  | cons e rest => exact .inr ⟨e, rest, rfl, rfl⟩

end Sys2Proof.Machine
end

