-- ==== Sys2Proof/Laws/HostActs.lean ====
section
/-! SUPPORT. What a host can do to a block between two commands, said once, and how it puts a chunk into the window. -/
namespace Sys2Proof.Machine

theorem portEvents_append (es fs : List PortEvent) (s : State) :
    portEvents (es ++ fs) s =
      match portEvents es s with
      | .next t => portEvents fs t
      | .fault r => .fault r
      | .refused r => .refused r := by
  induction es generalizing s with
  | nil => rfl
  | cons e es ih =>
    simp only [List.cons_append, portEvents]
    cases portEvent e s with
    | next t => exact ih t
    | fault r => rfl
    | refused r => rfl

/-- Once what an access that runs no command can do: the host's registers, the window and the values read, nothing else. -/
theorem portEvent_quiet {e : PortEvent} {s t : State} (hq : quietAccess s.params e = true) (h : portEvent e s = .next t) :
    t = { s with
      seedLo := t.seedLo, seedHi := t.seedHi, argAddr := t.argAddr, argLen := t.argLen,
      din := t.din, reads := t.reads } := by
  rcases portEvent_next h with ⟨addr, width, rfl, -, h⟩ | ⟨addr, width, v, rfl, -, h⟩ | ⟨rfl, -⟩ | ⟨rfl, -⟩
  · rcases hostRead_next h with ⟨o, -, rfl⟩ | ⟨a, n, bs, -, -, rfl⟩ <;> rfl
  · rcases hostWrite_next h with ⟨hl, -⟩ | ⟨o, r, -, -, -, rfl⟩ | ⟨o, -, -, rfl⟩ | ⟨a, n, -, rfl⟩
    · have := (locate_register_iff.mp hl).1
      simp [quietAccess, this] at hq
    · cases r <;> rfl
    · rfl
    · rfl
  · simp [quietAccess] at hq
  · simp [quietAccess] at hq

/-- The frame of what a host does between two commands. -/
theorem HostActs.frame {s t : State} (h : HostActs s t) :
    t = { s with
      seedLo := t.seedLo, seedHi := t.seedHi, argAddr := t.argAddr, argLen := t.argLen,
      din := t.din, reads := t.reads } := by
  obtain ⟨es, hq, h⟩ := h
  induction es generalizing s with
  | nil =>
    cases h
    rfl
  | cons e es ih =>
    rw [portEvents] at h
    split at h
    · rename_i s' he
      have h1 := portEvent_quiet (hq e (by simp)) he
      have hp : s'.params = s.params := by rw [h1]
      have h2 := ih (fun f hf => hp ▸ hq f (by simp [hf])) h
      rw [h2, h1]
    · cases h
    · cases h

/-- The host leaves the running computation as it is. -/
theorem HostActs.sameRun {s t : State} (h : HostActs s t) : SameRun s t := by
  rw [h.frame]
  exact ⟨rfl, rfl, rfl, rfl, rfl, rfl, rfl⟩

theorem HostActs.refl (s : State) : HostActs s s := ⟨[], by simp, rfl⟩

theorem HostActs.trans {s t u : State} (h1 : HostActs s t) (h2 : HostActs t u) : HostActs s u := by
  have hp : t.params = s.params := by rw [h1.frame]
  obtain ⟨es, hq, h⟩ := h1
  obtain ⟨fs, hq', h'⟩ := h2
  refine ⟨es ++ fs, fun e he => ?_, by rw [portEvents_append, h]; exact h'⟩
  rcases List.mem_append.mp he with he | he
  · exact hq e he
  · exact hp ▸ hq' e he

/-- A feeding with less between the chunks is one with more. -/
theorem FedVia.mono {p q : State → State → Prop} (hpq : ∀ s t, p s t → q s t) {s t : State} {chunks : List (List Byte)}
    (h : FedVia p s chunks t) : FedVia q s chunks t := by
  induction chunks generalizing s with
  | nil => exact hpq _ _ h
  | cons c cs ih =>
    obtain ⟨s0, s1, h0, ht, he, hf⟩ := h
    exact ⟨s0, s1, hpq _ _ h0, ht, he, ih hf⟩

/-- What is fed at the port is fed. -/
theorem FedAtPort.fed {s t : State} {chunks : List (List Byte)} (h : FedAtPort s chunks t) : Fed s chunks t :=
  h.mono fun _ _ => HostActs.sameRun

/-- A byte write inside the window. -/
theorem hostActs_writeByte {s : State} (hr : s.inReset = false) {a : Nat} (ha : a < s.params.dinSize) (v : Byte) :
    HostActs s { s with din := dinSet s.din a v } := by
  refine ⟨[.write (s.params.base + 0x100 + a) 1 (v.setWidth 32)], ?_, ?_⟩
  · simp [quietAccess, Reg.offset]
    omega
  · have hv : (v.setWidth 32).extractLsb' 0 8 = v := by
      ext k hk
      simp [show k < 32 by omega, BitVec.getLsbD_eq_getElem hk]
    simp [portEvents, portEvent, hr, hostWrite, locate_window (.inl rfl) (show a + 1 ≤ s.params.dinSize by omega), memWrite,
      leBytes, dinStore, hv]

/-- Byte writes put a chunk into the window. -/
theorem hostActs_writeBytes {s : State} (hr : s.inReset = false) (a : Nat) (c : List Byte)
    (hc : a + c.length ≤ s.params.dinSize) : HostActs s { s with din := dinStore s.din a c } := by
  induction c generalizing s a with
  | nil => exact .refl s
  | cons v c ih =>
    rw [List.length_cons] at hc
    exact (hostActs_writeByte hr (by omega) v).trans
      (ih (s := { s with din := dinSet s.din a v }) hr (a + 1) (by show a + 1 + c.length ≤ s.params.dinSize; omega))

/-- Register writes set the range of the next `UPDATE`. -/
theorem hostActs_range {s : State} (hr : s.inReset = false) (a n : U32) :
    HostActs s { s with argAddr := a, argLen := n } := by
  refine ⟨[.write (s.params.base + Reg.offset .argAddr) 4 a, .write (s.params.base + Reg.offset .argLen) 4 n], ?_, ?_⟩
  · simp [quietAccess, Reg.offset]
  · have h1 : portEvent (.write (s.params.base + Reg.offset .argAddr) 4 a) s = .next { s with argAddr := a } := by
      simp [portEvent, hr, hostWrite, State.writeReg]
    have h2 := locate_register s.params .argLen
    rw [portEvents, h1]
    simp [portEvents, portEvent, hr, hostWrite, h2, State.writeReg]

/-- The host puts a chunk that fits into the window from offset 0 and sets the range to it. -/
theorem hostActs_takes {s : State} (hr : s.inReset = false) (he : s.err = none) (hf : s.final = false) {c : List Byte}
    (hc : c.length ≤ s.params.dinSize) (hd : s.params.dinSize < 2 ^ 32) : ∃ t, HostActs s t ∧ t.Takes c := by
  have hlen : (BitVec.ofNat 32 c.length).toNat = c.length := by
    rw [BitVec.toNat_ofNat]
    exact Nat.mod_eq_of_lt (by omega)
  have h1 := hostActs_writeBytes hr 0 c (by omega)
  have h2 := hostActs_range (s := { s with din := dinStore s.din 0 c }) hr 0 (BitVec.ofNat 32 c.length)
  refine ⟨_, h1.trans h2, by simp [State.locked, he], hf, ?_, ?_⟩
  · show 0 + (BitVec.ofNat 32 c.length).toNat ≤ s.params.dinSize
    omega
  · show memRead (dinStore s.din 0 c) 0 (BitVec.ofNat 32 c.length).toNat = some c
    rw [hlen, memRead_eq_some_iff]
    refine ⟨rfl, fun k hk => ?_⟩
    rw [dinByte_dinStore, if_pos (by omega)]
    simp

end Sys2Proof.Machine
end

