-- ==== Sys2Proof/Laws/PerInstr.lean ====
section
/-! SUPPORT. The statements made of every instruction, one lemma per constructor. -/
namespace Sys2Proof.Laws

/-- The command word of R46: the reserved bits 7 to 31 are 0, and `ALGF` is the operand of `CFG` and 0 elsewhere. -/
def CommandWord.Statement (i : Instr) : Prop :=
  (encode i).extractLsb' 7 25 = 0 ∧
    algField (encode i) = match i with
      | .cfg algf => algf
      | .nop => 0
      | .reset => 0
      | .update => 0
      | .finalize => 0

theorem CommandWord.nop : CommandWord.Statement .nop := ⟨by decide, by decide⟩

theorem CommandWord.cfg (algf : BitVec 3) : CommandWord.Statement (.cfg algf) := by
  refine ⟨?_, algField_commandWord ..⟩
  revert algf
  decide

theorem CommandWord.reset : CommandWord.Statement .reset := ⟨by decide, by decide⟩

theorem CommandWord.update : CommandWord.Statement .update := ⟨by decide, by decide⟩

theorem CommandWord.finalize : CommandWord.Statement .finalize := ⟨by decide, by decide⟩

end Sys2Proof.Laws
end

