-- ==== Sys2Proof/Tests/Slice0.lean ====
section
/-! SUPPORT. Tests of single operations against `95_test_vectors.md` and the tables of the rules, and for every statement with
hypotheses a state that meets them. -/
namespace Sys2Proof.Tests
open Sys2Proof Sys2Proof.Machine

/-! Helpers -/

/-- The next state of an outcome. -/
def after (o : Host.Outcome State Fault Refusal) : Option State :=
  match o with
  | .next s => some s
  | .fault _ => none
  | .refused _ => none

/-- A small block at an address of its own. -/
def small : Config.Params := { base := 0x1000, dinSize := 64 }

/-- Bytes `i`, `i + 1`, … of the vectors `x"00 01 02 ..."`. -/
def counting (i n : Nat) : List Byte := (List.range n).map fun k => BitVec.ofNat 8 (i + k)

/-- The small block after `CFG` with algorithm `a` and seed 0, `bytes` in its window, and a range set for `UPDATE`. -/
def ready (a : Alg) (bytes : List Byte) (addr len : U32) : State :=
  ({ State.resetWith small with alg := a, din := dinStore [] 0 bytes, argAddr := addr, argLen := len } : State).softReset

/-- The small XXH32 block with 13 bytes pending. -/
def pending13 : State :=
  { ready .xxh32 (counting 13 20) 0 3 with
    totalLen := 13, pcount := 13, pbuf := overwrite (Vector.replicate 32 0) 0 (counting 0 13) }

/-- The small block locked by a fault. -/
def lockedBlock : State := (State.resetWith small).raise .illegal 0x00000041

/-- The small block after `FINALIZE`. -/
def finalBlock : State := { State.resetWith small with digest := digestFile (le32 0x02CC5D05), final := true }

/-! Well-formedness (R48, R50): the one check, and an ill-formed term it refuses -/

theorem test_wf_cfg3 : Instr.wellFormed (.cfg 3) = true := by decide

theorem test_wf_refuses_cfg4 : Instr.wellFormed (.cfg 4) = false := by decide

theorem test_wf_refuses_cfg7 : Instr.wellFormed (.cfg 7) = false := by decide

/-! Decoding: words written out bit by bit from the format of R46, `reserved ALGF OP` -/

theorem test_decode_nop : decode 0b0000000000000000000000000_000_0000 = .command .nop := by decide

theorem test_decode_cfg_xxh32 : decode 0b0000000000000000000000000_000_0001 = .command (.cfg 0) := by decide

theorem test_decode_cfg_mm3x86 : decode 0b0000000000000000000000000_011_0001 = .command (.cfg 3) := by decide

theorem test_decode_reset : decode 0b0000000000000000000000000_000_0010 = .command .reset := by decide

theorem test_decode_update : decode 0b0000000000000000000000000_000_0011 = .command .update := by decide

theorem test_decode_finalize : decode 0b0000000000000000000000000_000_0100 = .command .finalize := by decide

/-- Section 6.2: the illegal words. -/
theorem test_decode_illegal :
    [0x00000041, 0x00000071, 0x00000081, 0x00000101, 0x00000005, 0x0000000F, 0x00000010, 0x00000012, 0x80000003,
      0xFFFFFFFF].all (fun w => decide (decode w = .illegal)) = true := by decide

theorem test_encode_cfg_mm3x64 : encode (.cfg 2) = 0x00000021 := by decide

/-- The words of the opcode table, as the host numbers them. -/
theorem test_decodeTableWord :
    decodeTableWord 32 0 = some .nop ∧ decodeTableWord 32 1 = some (.cfg 0) ∧ decodeTableWord 32 2 = some .reset ∧
      decodeTableWord 32 3 = some .update ∧ decodeTableWord 32 4 = some .finalize ∧ decodeTableWord 32 5 = none := by decide

/-! Bit operations: section 3.1 -/

theorem test_rotl32 : rotl32 0x12345678 13 = 0x8ACF0246 ∧ rotl32 0x80000001 1 = 0x00000003 := by decide

theorem test_rotl64 : rotl64 0x0123456789ABCDEF 33 = 0x13579BDE02468ACF := by decide

theorem test_readLE32 : readLE32 [0x78, 0x56, 0x34, 0x12, 0xFF] 1 = some 0xFF123456 := by decide

/-- One byte too few (R57). -/
theorem test_readLE32_past_end : readLE32 [0x78, 0x56, 0x34, 0x12, 0xFF] 2 = none := by decide

theorem test_readLE64 :
    readLE64 [0xEF, 0xCD, 0xAB, 0x89, 0x67, 0x45, 0x23, 0x01, 0x80] 1 = some 0x800123456789ABCD := by decide

theorem test_packLE : packLE 32 [0x61, 0x62, 0x63] 0 3 = some 0x00636261 ∧ packLE 32 [0x61, 0x62, 0x63] 0 0 = some 0 := by
  decide

/-! Mixers: sections 3.2 to 3.5 -/

theorem test_xxh32_init : initAccs .xxh32 0xFFFFFFFF = ⟨0x24234427, 0x85EBCA76, 0xFFFFFFFF, 0x61C8864E⟩ := by decide

theorem test_xxh64_init :
    initAccs .xxh64 0xFFFFFFFFFFFFFFFF =
      ⟨0x60EA27EEADC0B5D5, 0xC2B2AE3D27D4EB4E, 0xFFFFFFFFFFFFFFFF, 0x61C8864E7A143578⟩ := by decide

theorem test_mm3x64_init : initAccs .mm3x64 0xFFFFFFFF00000007 = ⟨7, 7, 0, 0⟩ := by decide

theorem test_mm3x86_init : initAccs .mm3x86 0x00000000000000FF = ⟨0xFF, 0xFF, 0xFF, 0xFF⟩ := by decide

theorem test_xxh32_block :
    mix .xxh32 (initAccs .xxh32 0) (counting 0 16) = some ⟨0xF817BCCB, 0x0222719B, 0xD4B0C0A4, 0xDEBB7574⟩ := by decide

theorem test_xxh64_block :
    mix .xxh64 (initAccs .xxh64 0) (counting 0 32) =
      some ⟨0xF4B53B57406B5E99, 0xC3D34B511FC32561, 0xCB26C007C8A1553F, 0x9A44D001A7F91C07⟩ := by decide

theorem test_mm3x64_block :
    mix .mm3x64 ⟨0, 0, 0, 0⟩ (counting 0 16) = some ⟨0xDCAC505EA5C458DF, 0x72927C4BE244042D, 0, 0⟩ := by decide

theorem test_mm3x86_block :
    mix .mm3x86 ⟨0, 0, 0, 0⟩ (counting 0 16) = some ⟨0x4DA35DC9, 0xE63B85D2, 0x45E13894, 0xE3E40E30⟩ := by decide

/-- XXH32 of "abc" (section 3.2): `v3 + P5`, three single bytes. -/
theorem test_xxh32_abc : fin .xxh32 (initAccs .xxh32 0) 3 [0x61, 0x62, 0x63] = some [0xff, 0x53, 0xd1, 0x32] := by decide

/-- XXH32 of 15 counting bytes (section 4): three groups and three single bytes. -/
theorem test_xxh32_15 : fin .xxh32 (initAccs .xxh32 0) 15 (counting 0 15) = some [0xce, 0x1e, 0xc0, 0x57] := by decide

/-- XXH64 of no bytes: vector S4 of the source. -/
theorem test_xxh64_empty : fin .xxh64 (initAccs .xxh64 0) 0 [] = some (le64 0xEF46DB3751D8E999) := by decide

/-- XXH64 of 31 counting bytes (section 4): every kind of tail step. -/
theorem test_xxh64_31 :
    fin .xxh64 (initAccs .xxh64 0) 31 (counting 0 31) = some [0xe1, 0x8e, 0x4d, 0x9b, 0xb5, 0xd2, 0x46, 0xc3] := by decide

/-- MurmurHash3 x64_128 of "abc" (section 3.4). -/
theorem test_mm3x64_abc :
    fin .mm3x64 (initAccs .mm3x64 0) 3 [0x61, 0x62, 0x63] =
      some [0x67, 0x78, 0xad, 0x3f, 0x3f, 0x3f, 0x96, 0xb4, 0x52, 0x2d, 0xca, 0x26, 0x41, 0x74, 0xa2, 0x3b] := by decide

/-- MurmurHash3 x64_128 of 15 counting bytes (section 4): both lanes. -/
theorem test_mm3x64_15 :
    fin .mm3x64 (initAccs .mm3x64 0) 15 (counting 0 15) =
      some [0xe9, 0x25, 0x49, 0xfd, 0x98, 0x15, 0x23, 0x47, 0xe9, 0x7d, 0xc6, 0x88, 0xee, 0x6d, 0x84, 0xcd] := by decide

/-- MurmurHash3 x86_128 of "abc" (section 3.5). -/
theorem test_mm3x86_abc :
    fin .mm3x86 (initAccs .mm3x86 0) 3 [0x61, 0x62, 0x63] =
      some [0xd1, 0xc6, 0xcd, 0x75, 0xa5, 0x06, 0xb0, 0xa2, 0xa5, 0x06, 0xb0, 0xa2, 0xa5, 0x06, 0xb0, 0xa2] := by decide

/-- MurmurHash3 x86_128 of 15 counting bytes (section 4): all four lanes. -/
theorem test_mm3x86_15 :
    fin .mm3x86 (initAccs .mm3x86 0) 15 (counting 0 15) =
      some [0x59, 0x9c, 0x7b, 0x75, 0xca, 0xe4, 0xa6, 0x62, 0x4e, 0xdb, 0xe2, 0x61, 0x66, 0x55, 0x77, 0xca] := by decide

/-! Commands: sections 6.1, 6.3 and 6.4 -/

theorem test_cfg_latches_seed :
    (after (exec (.cfg 1) { State.resetWith small with seedLo := 0x89ABCDEF, seedHi := 0x01234567 })).map
      (fun t => (t.aseed, t.acc.w2, t.status)) = some (0x0123456789ABCDEF, 0x0123456789ABCDEF, 0x00000010) := by decide

/-- `CFG` releases the lock. -/
theorem test_cfg_unlocks : (after (exec (.cfg 3) lockedBlock)).map (fun t => (t.status, t.errCmd)) = some (0x30, 0) := by
  decide

/-- `RESET` releases the lock and keeps the model's record. -/
theorem test_reset_unlocks :
    (after (exec .reset lockedBlock)).map (fun t => (t.status, t.errCmd, t.faultRecord)) = some (0, 0, true) := by decide

/-- XXH32, (0, 15): step 1 only. -/
theorem test_update_keeps_15 :
    (after (exec .update (ready .xxh32 (counting 0 20) 0 15))).map (fun t => (t.status, t.totalLen, t.pending)) =
      some (0x00000F00, 15, counting 0 15) := by decide

/-- XXH32, (0, 20): one block, 4 bytes kept. -/
theorem test_update_mixes_a_block :
    (after (exec .update (ready .xxh32 (counting 0 20) 0 20))).map (fun t => (t.acc, t.pcount, t.pending)) =
      some (⟨0xF817BCCB, 0x0222719B, 0xD4B0C0A4, 0xDEBB7574⟩, 4, [0x10, 0x11, 0x12, 0x13]) := by decide

/-- After 13 pending bytes 3 more make one block exactly. -/
theorem test_update_fills_a_block :
    (after (exec .update pending13)).map (fun t => (t.acc, t.pcount, t.totalLen)) =
      some (⟨0xF817BCCB, 0x0222719B, 0xD4B0C0A4, 0xDEBB7574⟩, 0, 16) := by decide

/-- The sum of the range check has 33 bits: (0xFFFFFFFF, 2). -/
theorem test_update_bounds :
    (after (exec .update (ready .xxh32 [] 0xFFFFFFFF 2))).map (fun t => (t.status, t.errCmd)) = some (0x2, 0x3) := by decide

/-- Misuse is reported before bounds. -/
theorem test_update_misuse :
    (after (exec .update { finalBlock with argAddr := 4096, argLen := 1 })).map (fun t => (t.status, t.errCmd)) =
      some (0x5, 0x3) := by decide

/-- `FINALIZE` straight after reset. -/
theorem test_finalize_empty :
    (after (exec .finalize (State.resetWith small))).map (fun t => (t.status, t.readReg .digest0, t.readReg .digest1)) =
      some (0x1, 0x02CC5D05, 0) := by decide

/-- An illegal word is dropped while locked: the first fault is kept. -/
theorem test_illegal_word_locked : (after (issue 0x00000005 lockedBlock)).map (·.errCmd) = some 0x00000041 := by decide

theorem test_illegal_word :
    (after (issue 0x00000041 (State.resetWith small))).map (fun t => (t.status, t.errCmd)) = some (0x8, 0x41) := by decide

/-! The port, scripts and the platform -/

/-- `wrw 0, 0x64636261` puts "abcd" in the window (P3). -/
theorem test_window_write :
    (after (hostWrite (0x1000 + 0x100) 4 0x64636261 (State.resetWith small))).map (·.din) =
      some [(0, 0x61), (1, 0x62), (2, 0x63), (3, 0x64)] := by decide

/-- A second write to a byte replaces it, and the list stays sorted. -/
theorem test_window_rewrite : memWrite [(1, 0xAA), (3, 0xBB)] 0 2 0x2211 = [(0, 0x11), (1, 0x22), (3, 0xBB)] := by decide

theorem test_window_read :
    (after (hostRead (0x1000 + 0x100 + 1) 2 { State.resetWith small with din := [(1, 0x34), (2, 0x12)] })).map (·.reads) =
      some [0x1234] := by decide

/-- A word at the last offset a word fits, and one byte further (R35). -/
theorem test_window_end :
    locate small (0x1000 + 0x100 + 60) 4 = .ok (.window 60 4) ∧ locate small (0x1000 + 0x100 + 61) 4 = .error .accessForm ∧
      locate small (0x1000 + 0x100 + 64) 1 = .error .notDecoded := by
  simp [locate, decodes, locateOffset, small, Config.registerArea]

theorem test_register_forms :
    locate small (0x1000 + 0xFC) 4 = .ok (.register 0xFC) ∧ locate small (0x1000 + 0x02) 4 = .error .accessForm ∧
      locate small (0x1000 + 0x04) 2 = .error .accessForm ∧ locate small 0x0FFF 1 = .error .notDecoded := by
  simp [locate, decodes, locateOffset, small, Config.registerArea]

/-- `cfg mm3x64` and `upd 0, 4` (R51, R52). -/
theorem test_script :
    (ScriptLine.cfg 2).expand small = [.write 0x1000 4 0x00000021] ∧
      (ScriptLine.upd 0 4).expand small = [.write 0x1010 4 0, .write 0x1014 4 4, .write 0x1000 4 0x00000003] := by decide

/-- `hash xxh64, 5, 0, 3` (R52): two digest registers. -/
theorem test_script_hash :
    (ScriptLine.hash .xxh64 5 0 3).expand small =
      [.write 0x1008 4 5, .write 0x100C 4 0, .write 0x1000 4 0x00000011, .write 0x1010 4 0, .write 0x1014 4 3,
        .write 0x1000 4 0x00000003, .write 0x1000 4 0x00000004, .read 0x1020 4, .read 0x1024 4] := by decide

/-- Two blocks side by side. -/
def pair : Platform := { blocks := [State.resetWith small, State.resetWith { base := 0x2000, dinSize := 32 }] }

/-- A write reaches the block that decodes its address (R119). -/
theorem test_platform_write :
    (match pair.hostWrite 0x2010 4 7 with
      | .next m => m.blocks.map (·.argAddr)
      | .fault _ => []
      | .refused _ => []) = [0, 7] := by decide

/-! `withFetchWord`: each row of the table as the first command after reset -/

theorem test_first_nop : step (State.reset.withFetchWord 32 0) = .next State.reset := rfl

theorem test_first_cfg : step (State.reset.withFetchWord 32 0x31) = exec (.cfg 3) State.reset := rfl

theorem test_first_reset : step (State.reset.withFetchWord 32 2) = exec .reset State.reset := rfl

theorem test_first_update : step (State.reset.withFetchWord 32 3) = .next State.reset := rfl

theorem test_first_finalize : step (State.reset.withFetchWord 32 4) = exec .finalize State.reset := rfl

/-! Witnesses: for each statement with hypotheses, states and operands that meet them, clause by clause, at the edges -/

/-- The fields of `State.Inv` that are not decided by evaluation are about lists, and empty here. -/
theorem test_witness_inv : (State.resetWith small).Inv where
  params := by decide
  dinSorted := by decide
  dinInside := by decide
  acc := (by decide : (⟨0x24234428, 0x85EBCA77, 0, 0x61C8864F⟩ : Accs) = accs32 0x24234428 0x85EBCA77 0 0x61C8864F)
  pcount := by decide
  pcountMod := by decide
  errCmd := rfl
  digest := by decide
  record := by decide

/-- `JustReset`, after `RESET` and after `CFG` (ResetRestoresPostConstruction). -/
theorem test_witness_justReset : JustReset (ready .xxh32 [] 0 0) ∧ JustReset (ready .mm3x86 [] 0 0) :=
  ⟨⟨ready .xxh32 [] 0 0, .reset, .inl rfl, rfl⟩, ⟨ready .xxh32 [] 0 0, _, .inr ⟨.mm3x86, rfl⟩, rfl⟩⟩

/-- CfgLatchesAndRestarts: the algorithm and the seed as before. -/
theorem test_witness_cfg_same : finalBlock.alg = .xxh32 ∧ finalBlock.aseed = finalBlock.seedHi ++ finalBlock.seedLo := by decide

/-- CfgReservedCodeActsAsIllegalWord: codes 4 and 7, locked and not. -/
theorem test_witness_cfg_reserved :
    4 ≤ (4#3).toNat ∧ 4 ≤ (7#3).toNat ∧ lockedBlock.err ≠ none ∧ (State.resetWith small).err = none := by decide

/-- Locked, and locked with a digest held: every clause that asks for a lock. -/
theorem test_witness_locked : lockedBlock.err ≠ none ∧ ({ lockedBlock with final := true } : State).err ≠ none := by decide

/-- Final and unlocked: UpdateRunsTheStreamingBuffer, FinalizeStoresThePaddedDigest, UpdateAfterFinalizeIsMisuse,
SecondFinalizeChangesNothing and EmptyUpdateChangesNothing. -/
theorem test_witness_final : finalBlock.err = none ∧ finalBlock.final = true ∧ finalBlock.argLen = 0 := by decide

/-- A range that ends at `DIN_SIZE` passes, one that ends a byte later does not; empty ranges too
(UpdateRunsTheStreamingBuffer, BoundsFaultExactlyOutOfRange, EmptyUpdateChangesNothing). -/
theorem test_witness_range_edges :
    (∃ s : State, s.err = none ∧ s.final = false ∧ s.argAddr.toNat + s.argLen.toNat ≤ s.params.dinSize ∧ s.argLen = 4) ∧
    (∃ s : State, s.err = none ∧ s.final = false ∧ s.params.dinSize < s.argAddr.toNat + s.argLen.toNat ∧ s.argLen = 5) ∧
    (∃ s : State, s.err = none ∧ s.final = false ∧ s.argAddr.toNat ≤ s.params.dinSize ∧ s.argAddr = 64 ∧ s.argLen = 0) ∧
    (∃ s : State, s.err = none ∧ s.final = false ∧ s.params.dinSize < s.argAddr.toNat ∧ s.argAddr = 65 ∧ s.argLen = 0) :=
  ⟨⟨ready .xxh32 [] 60 4, by decide⟩, ⟨ready .xxh32 [] 60 5, by decide⟩, ⟨ready .xxh32 [] 64 0, by decide⟩,
    ⟨ready .xxh32 [] 65 0, by decide⟩⟩

/-- UpdateRunsTheStreamingBuffer, bytes that only fill: 15 of 16, and 31 of 32. -/
theorem test_witness_update_short :
    ((ready .xxh32 (counting 0 20) 0 15).Takes (counting 0 15) ∧
      (ready .xxh32 (counting 0 20) 0 15).pcount.toNat + (counting 0 15).length = 15) ∧
    (ready .xxh64 (counting 0 40) 2 31).Takes (counting 2 31) :=
  ⟨⟨⟨by decide, by decide, by decide, by decide⟩, by decide⟩, ⟨by decide, by decide, by decide, by decide⟩⟩

/-- UpdateRunsTheStreamingBuffer, full blocks: 13 pending and 3 new are one block exactly; 20 bytes are one and a part; the
largest range of the window is four. -/
theorem test_witness_update_long :
    (pending13.Takes (counting 13 3) ∧ pending13.pcount.toNat < blockSize pending13.alg ∧
      pending13.pcount.toNat + (counting 13 3).length = blockSize pending13.alg) ∧
    (ready .mm3x64 (counting 0 20) 0 20).Takes (counting 0 20) ∧
    (ready .mm3x86 (counting 0 64) 0 64).Takes (counting 0 64) :=
  ⟨⟨⟨by decide, by decide, by decide, by decide⟩, by decide, by decide⟩, ⟨by decide, by decide, by decide, by decide⟩,
    ⟨by decide, by decide, by decide, by decide⟩⟩

/-- FinalizeStoresThePaddedDigest: a tail of 15 bytes, and a count that breaks R25. -/
theorem test_witness_finalize :
    (∃ s : State, s.err = none ∧ s.final = false ∧ s.pcount.toNat < blockSize s.alg ∧ s.pcount = 15) ∧
    (∃ s : State, s.err = none ∧ s.final = false ∧ blockSize s.alg ≤ s.pcount.toNat ∧ s.pcount = 16) :=
  ⟨⟨{ ready .xxh32 [] 0 0 with pcount := 15 }, by decide⟩, ⟨{ ready .xxh32 [] 0 0 with pcount := 16 }, by decide⟩⟩

/-- FaultPriorityOrder and FaultsArePrecise: the words of each clause. -/
theorem test_witness_priority :
    (lockedBlock.err ≠ none ∧ decode 0x00000003 = .command .update) ∧
    ((State.resetWith small).err = none ∧ decode 0x00000012 = .illegal) ∧
    (finalBlock.err = none ∧ finalBlock.final = true) ∧
    ((ready .xxh32 [] 65 0).err = none ∧ (ready .xxh32 [] 65 0).final = false ∧
      small.dinSize < (ready .xxh32 [] 65 0).argAddr.toNat + (ready .xxh32 [] 65 0).argLen.toNat) ∧
    (∃ t, issue 0x00000003 (ready .xxh32 [] 65 0) = .next t ∧ t.err = some .bounds) :=
  ⟨by decide, by decide, by decide, by decide, ⟨_, rfl, by decide⟩⟩

/-- LockedBlockDropsCommands: window accesses at the window's last bytes, every width, in a locked block. -/
theorem test_witness_locked_window :
    (lockedBlock.inReset = false ∧ 63 + 1 ≤ small.dinSize ∧ 62 + 2 ≤ small.dinSize ∧ 60 + 4 ≤ small.dinSize) ∧
    memRead ({ lockedBlock with din := [(62, 1), (63, 2)] } : State).din 62 2 = some [1, 2] := by decide

/-- TotalLenGrowsByArgLen, OnlyUpdateReadsTheRangeArguments and CommandFrames: an `UPDATE` with a next state, on the path that
counts and on one that does not. -/
theorem test_witness_update_next :
    (∃ t, exec .update (ready .xxh32 (counting 0 20) 0 15) = .next t ∧ t.totalLen = 15) ∧
    (∃ t, exec .update lockedBlock = .next t ∧ t.totalLen = 0) := ⟨⟨_, rfl, by decide⟩, ⟨_, rfl, by decide⟩⟩

/-- `SameRun` of two states that differ in the arguments and the window only. -/
theorem sameRun_args (s : State) (addr len : U32) (m : List Host.Cell) :
    SameRun s { s with argAddr := addr, argLen := len, din := m } := ⟨rfl, rfl, rfl, rfl, rfl, rfl, rfl⟩

/-- The XXH32 block straight after `RESET`, its `ASEED` as given. -/
def fresh (aseed : U64) : State := ({ State.resetWith small with aseed := aseed } : State).softReset

/-- `s` with a chunk in its window and its range set. -/
def given (s : State) (c : List Byte) : State :=
  { s with argAddr := 0, argLen := BitVec.ofNat 32 c.length, din := dinStore [] 0 c }

/-- The state the `UPDATE` of a chunk leaves. -/
def fed (s : State) (c : List Byte) : State := (after (exec .update (given s c))).getD s

/-- ChunkInvariance: 3 bytes in two chunks and at once. -/
theorem test_witness_fed :
    Fed (fresh 0) [[0x61], [0x62, 0x63]] (fed (fed (fresh 0) [0x61]) [0x62, 0x63]) ∧
    Fed (fresh 0) [[[0x61], [0x62, 0x63]].flatten] (fed (fresh 0) [0x61, 0x62, 0x63]) :=
  ⟨⟨given (fresh 0) [0x61], fed (fresh 0) [0x61], sameRun_args .., ⟨rfl, rfl, by decide, by decide⟩, rfl,
      given (fed (fresh 0) [0x61]) [0x62, 0x63], _, sameRun_args .., ⟨rfl, rfl, by decide, by decide⟩, rfl,
      ⟨rfl, rfl, rfl, rfl, rfl, rfl, rfl⟩⟩,
    ⟨given (fresh 0) [0x61, 0x62, 0x63], _, sameRun_args .., ⟨rfl, rfl, by decide, by decide⟩, rfl,
      ⟨rfl, rfl, rfl, rfl, rfl, rfl, rfl⟩⟩⟩

/-- ChunkInvariance: and the two `FINALIZE`s. -/
theorem test_witness_fed_finalize :
    (fresh 0).err = none ∧ (fresh 0).final = false ∧
    (∃ u, exec .finalize (fed (fed (fresh 0) [0x61]) [0x62, 0x63]) = .next u) ∧
    (∃ u, exec .finalize (fed (fresh 0) [0x61, 0x62, 0x63]) = .next u) := ⟨rfl, rfl, ⟨_, rfl⟩, ⟨_, rfl⟩⟩

/-- DigestIsAFunctionOfSeedAndStream: two blocks whose seeds differ above the part XXH32 reads, and "abc" in two cuts. -/
theorem test_witness_hashes :
    JustReset (fresh 0) ∧ JustReset (fresh 0x0000000100000000) ∧ (fresh 0).alg = (fresh 0x0000000100000000).alg ∧
    seedPart .xxh32 (fresh 0).aseed = seedPart .xxh32 (fresh 0x0000000100000000).aseed ∧
    (∃ d, Hashes (fresh 0) [[0x61], [0x62, 0x63]] d) ∧ (∃ d, Hashes (fresh 0x0000000100000000) [[0x61, 0x62, 0x63]] d) :=
  ⟨⟨_, .reset, .inl rfl, rfl⟩, ⟨_, .reset, .inl rfl, rfl⟩, rfl, by decide,
    ⟨_, _, _, test_witness_fed.1, rfl, rfl⟩,
    ⟨_, fed (fresh 0x0000000100000000) [0x61, 0x62, 0x63], _,
      ⟨given (fresh 0x0000000100000000) [0x61, 0x62, 0x63], _, sameRun_args .., ⟨rfl, rfl, by decide, by decide⟩, rfl,
        ⟨rfl, rfl, rfl, rfl, rfl, rfl, rfl⟩⟩, rfl, rfl⟩⟩

/-- ResetEquivalence: a locked block with `ASEED` 5, and a block given the same algorithm and seed. -/
theorem test_witness_reset_equivalence :
    (∃ r, exec .reset { lockedBlock with aseed := 5 } = .next r) ∧
    (∃ r, exec (.cfg Alg.xxh32.code) { finalBlock with seedLo := 5 } = .next r) ∧
    finalBlock.seedHi ++ ({ finalBlock with seedLo := 5 } : State).seedLo = ({ lockedBlock with aseed := 5 } : State).aseed :=
  ⟨⟨_, rfl⟩, ⟨_, rfl⟩, by decide⟩

/-- EveryStreamHasADigest: a chunk as large as the window, and an empty one. -/
theorem test_witness_chunks_fit :
    (State.resetWith small).Inv ∧ (State.resetWith small).inReset = false ∧
      (∀ c ∈ [counting 0 64, []], c.length ≤ (State.resetWith small).params.dinSize) ∧
      ∃ r, exec .reset (State.resetWith small) = .next r := ⟨test_witness_inv, rfl, by decide, ⟨_, rfl⟩⟩

/-- Four accesses of the host that put "ab" into the window and set the range, run no command, and let `UPDATE` take it. -/
theorem test_host_acts :
    (∃ t, HostActs (fresh 0) t ∧ t.Takes [0x61, 0x62]) ∧ quietAccess small (.write 0x1000 4 0) = false :=
  ⟨⟨_, ⟨[.write 0x1100 1 0x61, .write 0x1101 1 0x62, .read 0x1004 4, .write 0x1014 4 2], by decide, rfl⟩,
    ⟨rfl, rfl, by decide, by decide⟩⟩, by decide⟩

/-- UnwrittenBytesHaveNoValue: the last byte of a range, the others written. -/
theorem test_witness_unwritten :
    (dinByte (ready .xxh32 (counting 0 3) 0 4).din 3 = none ∧ dinByte (ready .xxh32 (counting 0 3) 0 4).din 2 = some 2 ∧
      (ready .xxh32 (counting 0 3) 0 4).inReset = false) ∧
    ((ready .xxh32 (counting 0 3) 0 4).err = none ∧ (ready .xxh32 (counting 0 3) 0 4).final = false ∧
      3 < (ready .xxh32 (counting 0 3) 0 4).argLen.toNat) := by decide

/-- IllegalWordsAreTheReservedSpace: one word of each kind, in an unlocked block. -/
theorem test_witness_illegal :
    decode 0x0000000F = .illegal ∧ decode 0x00000010 = .illegal ∧ decode 0x00000041 = .illegal ∧ decode 0x00000081 = .illegal ∧
      (State.resetWith small).err = none := by decide

/-- StepRunsTheDecodedCommand and StepTakesActionsInOrder. -/
theorem test_witness_step :
    (∃ (s : State) (w : U32) (i : Instr), s.inReset = false ∧ s.script = .write s.params.base 4 w :: [] ∧
      decode w = .command i) ∧
    (∃ (s : State) (w : U32), s.inReset = false ∧ s.script = .write s.params.base 4 w :: [] ∧ decode w = .illegal) ∧
    (State.resetWith small).script = [] :=
  ⟨⟨(State.resetWith small).withCommand 3, 3, .update, rfl, rfl, by decide⟩,
    ⟨(State.resetWith small).withCommand 5, 5, rfl, rfl, by decide⟩, rfl⟩

/-- RegisterAreaAccess: the ends of the reserved offsets, and accesses of other forms. -/
theorem test_witness_reserved_offsets :
    (State.resetWith small).inReset = false ∧ (0x03C ≤ 0x03C ∧ 0x03C < 0x100 ∧ 0x03C % 4 = 0) ∧
      (0x03C ≤ 0x0FC ∧ 0x0FC < 0x100 ∧ 0x0FC % 4 = 0) ∧
      (0x0FF < 0x100 ∧ 0x0FF % 4 ≠ 0) ∧ (2 : Nat) ≠ 4 := by decide

/-- DigestRegistersShowTheDigest: a digest whose first words are known, and the invariant with each side of the choice. -/
theorem test_witness_digest_registers :
    finalBlock.digest.toList.take 4 = le32 0x02CC5D05 ∧ finalBlock.digest.toList.take 8 = le64 0x0000000002CC5D05 ∧
      (State.resetWith small).Inv ∧ (State.resetWith small).final = false ∧ digestLength finalBlock.alg ≤ 4 * 1 :=
  ⟨by decide, by decide, test_witness_inv, rfl, by decide⟩

/-- OnlyCfgReadsTheSeedArgument and OnlyUpdateReadsTheRangeArguments. -/
theorem test_witness_other_commands : (∀ c, Instr.update ≠ .cfg c) ∧ Instr.finalize ≠ .update := by decide

/-- OtherAccessFormsAreRefused: the addresses next to the block, and its last one, where a word is a refused form. -/
theorem test_witness_outside :
    (0x0FFF < small.base ∧ small.base + 0x100 + small.dinSize ≤ 0x1140 ∧ (State.resetWith small).inReset = false) ∧
    (small.base ≤ 0x113F ∧ 0x113F < small.base + 0x100 + small.dinSize) ∧
    (∃ r, portEvent (.read 0x113F 4) (State.resetWith small) = .refused r) ∧
    ∃ r, portEvent (.write 0x113F 4 0) (State.resetWith small) = .refused r :=
  ⟨by decide, by decide, ⟨.accessForm, rfl⟩, ⟨.accessForm, rfl⟩⟩

/-- WindowWriteSetsItsBytes and WindowReadsReturnWhatWasWritten: a word at the end of the window, bytes written before. -/
theorem test_witness_window :
    60 + 4 ≤ small.dinSize ∧
      (∃ t, portEvent (.write (small.base + 0x100 + 63) 1 9) (State.resetWith small) = .next t ∧
        t.din ≠ (State.resetWith small).din) ∧
      (∀ k, k < 2 → dinByte [(62, 5), (63, 6)] (62 + k) = some ([5, 6].getD k 0)) ∧
      (∃ t, portEvent (.write (small.base + 0x100 + 60) 4 0x04030201) (State.resetWith small) = .next t) :=
  ⟨by decide, ⟨_, rfl, by decide⟩, by decide, ⟨_, rfl⟩⟩

/-- ReadsHaveNoSideEffect: a register and a window byte. -/
theorem test_witness_reads :
    (∃ t, portEvent (.read 0x1004 4) (State.resetWith small) = .next t) ∧
    (∃ t, portEvent (.read 0x1100 1) { State.resetWith small with din := [(0, 7)] } = .next t) := ⟨⟨_, rfl⟩, ⟨_, rfl⟩⟩

/-- StepKeepsTheInvariant: a step that runs a command. -/
theorem test_witness_step_inv :
    ((State.resetWith small).withCommand 4).Inv ∧ ∃ t, step ((State.resetWith small).withCommand 4) = .next t :=
  ⟨⟨test_witness_inv.1, test_witness_inv.2, test_witness_inv.3, test_witness_inv.4, test_witness_inv.5, test_witness_inv.6,
    test_witness_inv.7, test_witness_inv.8, test_witness_inv.9⟩, ⟨_, rfl⟩⟩

/-- ResetMeetsTheInvariant: the default parameters, and the smallest and the largest window. -/
theorem test_witness_params :
    Config.Params.default.wf ∧ (⟨0x100, 32⟩ : Config.Params).wf ∧ (⟨0, 16777216⟩ : Config.Params).wf := by decide

/-- HardwareResetSignal: a block held in reset. -/
theorem test_witness_held : (State.resetWith small).hardwareReset.inReset = true := by decide

/-- FaultRecordIsNeverCleared and RecordedFaultStaysUntilReset: a step that records a fault, and one that clears `ERR`. -/
theorem test_witness_record :
    (∃ t, step ((State.resetWith small).withCommand 5) = .next t ∧ t.err ≠ none ∧ t.err ≠ (State.resetWith small).err) ∧
    (∃ t, step (lockedBlock.withCommand 2) = .next t ∧ t.err = none) ∧ (lockedBlock.withCommand 2).err ≠ none :=
  ⟨⟨_, rfl, by decide, by decide⟩, ⟨_, rfl, by decide⟩, by decide⟩

/-- OnlyCfgWritesAlgorithmAndSeed: by `CFG`, and by hardware reset. -/
theorem test_witness_alg_changes :
    (∃ t, step ((State.resetWith small).withCommand 0x31) = .next t ∧ t.alg ≠ (State.resetWith small).alg) ∧
    (∃ t, step { ready .xxh64 [] 0 0 with script := [.resetAssert] } = .next t ∧ t.alg ≠ (ready .xxh64 [] 0 0).alg) :=
  ⟨⟨_, rfl, by decide⟩, ⟨_, rfl, by decide⟩⟩

/-- FinalFlagWriters: set by `FINALIZE`, cleared by `RESET`. -/
theorem test_witness_final_changes :
    (∃ t, step ((State.resetWith small).withCommand 4) = .next t ∧ (State.resetWith small).final = false ∧ t.final = true) ∧
    (∃ t, step (finalBlock.withCommand 2) = .next t ∧ finalBlock.final = true ∧ t.final = false) :=
  ⟨⟨_, rfl, by decide, by decide⟩, ⟨_, rfl, by decide, by decide⟩⟩

/-- TotalLenWriters: grown by `UPDATE`, cleared by `RESET`. -/
theorem test_witness_length_changes :
    (∃ t, step ((ready .xxh32 (counting 0 20) 0 3).withCommand 3) = .next t ∧ t.totalLen = 3) ∧
    (∃ t, step (pending13.withCommand 2) = .next t ∧ t.totalLen ≠ pending13.totalLen) :=
  ⟨⟨_, rfl, by decide⟩, ⟨_, rfl, by decide⟩⟩

/-- CommandFrames: `FINALIZE`, `RESET` and `CFG` with a next state. -/
theorem test_witness_frames :
    (∃ t, exec .finalize pending13 = .next t) ∧ (∃ t, exec .reset pending13 = .next t) ∧
      ∃ t, exec (.cfg Alg.mm3x64.code) pending13 = .next t := ⟨⟨_, rfl⟩, ⟨_, rfl⟩, ⟨_, rfl⟩⟩

/-- InstancesShareNothing: a platform of two blocks, an action on the second, and its last address. -/
theorem test_witness_platform :
    pair.wf ∧ (∃ m, pair.act 1 (.write 0x2010 4 7) = .next m) ∧ pair.blocks[1]? = some (State.resetWith ⟨0x2000, 32⟩) ∧
      decodes ⟨0x2000, 32⟩ 0x211F = true ∧
      (∃ t, portEvent (.write 0x2010 4 7) (State.resetWith ⟨0x2000, 32⟩) = .next t) :=
  ⟨by decide, ⟨_, rfl⟩, rfl, by decide, ⟨_, rfl⟩⟩

/-- RotatesMoveEveryBit: the least and the largest amount. -/
theorem test_witness_rotates : rotl32 0x00000001 31 = 0x80000000 ∧ rotl64 0x0000000000000001 63 = 0x8000000000000000 := by decide

/-- ReadLE32AtAnyOffset, ReadLE64AtAnyOffset and PackLEIsTheXorOfItsBytes: the last offset that fits, and the next. -/
theorem test_witness_reads_fit :
    (1 + 4 ≤ (counting 0 5).length ∧ (counting 0 5).length < 2 + 4) ∧ (1 + 8 ≤ (counting 0 9).length ∧ (counting 0 9).length < 2 + 8) ∧
      (1 ≤ 5 ∧ 5 ≤ (counting 0 5).length ∧ 5 - 1 ≤ 4) := by decide

/-- InitialAccumulators: seeds that agree in the low half. -/
theorem test_witness_seed_low : Alg.mm3x64 ≠ .xxh64 ∧ (0x0000000100000007#64).setWidth 32 = (0x7#64).setWidth 32 := by decide

/-- The finalizations: the longest tails. -/
theorem test_witness_tails :
    ([1, 2, 3] : List U32).length ≤ 3 ∧ ([1, 2, 3] : List U64).length ≤ 3 ∧ (counting 0 3).length ≤ 3 ∧
      (counting 0 15).length < 16 := by decide

end Sys2Proof.Tests
end

section
/-! SUPPORT. The step by the form of the script, and a write to `CMD` at the port: the rules the step's statements rest on. -/
namespace Sys2Proof.Machine

/-- R131: with no action left the block is quiescent. -/
theorem step_of_script_nil {s : State} (h : s.script = []) : step s = .next s := by
  obtain ⟨-, hstep⟩ | ⟨e, rest, hs, -⟩ := step_cases s
  · exact hstep
  · simp [h] at hs

/-- R8, R42: the first action of the script is taken at the port. -/
theorem step_of_script_cons {s : State} {e : PortEvent} {rest : List PortEvent} (h : s.script = e :: rest) :
    step s = portEvent e { s with script := rest } := by
  obtain ⟨hs, -⟩ | ⟨e', rest', hs, hstep⟩ := step_cases s
  · simp [h] at hs
  · obtain ⟨rfl, rfl⟩ := List.cons.inj (h.symm.trans hs)
    exact hstep

theorem issue_of_command {w : U32} {i : Instr} (h : decode w = .command i) (s : State) : issue w s = exec i s := by
  simp [issue, h]

theorem issue_of_illegal {w : U32} (h : decode w = .illegal) (s : State) : issue w s = .next (s.raiseIllegal w) := by
  simp [issue, h]

theorem portEvent_write {s : State} (hr : s.inReset = false) (addr width : Nat) (v : U32) :
    portEvent (.write addr width v) s = hostWrite addr width v s := by
  simp [portEvent, hr]

/-- R107: a step whose action is the 4-byte write of `w` to `CMD`, at `BASE`, issues `w`. -/
theorem step_of_cmdWrite {s : State} {w : U32} {rest : List PortEvent} (hr : s.inReset = false)
    (h : s.script = .write s.params.base 4 w :: rest) : step s = issue w { s with script := rest } := by
  calc step s = portEvent (.write s.params.base 4 w) { s with script := rest } := step_of_script_cons h
    _ = hostWrite s.params.base 4 w { s with script := rest } :=
      portEvent_write (s := { s with script := rest }) hr ..
    _ = issue w { s with script := rest } := hostWrite_cmd w { s with script := rest }

/-- The word that `withFetchWord` places at full width is the word given. -/
theorem withFetchWord_toNat (s : State) (w : U32) : s.withFetchWord 32 w.toNat = s.withCommand w := by
  rw [State.withFetchWord, Nat.mod_eq_of_lt w.isLt, BitVec.ofNat_toNat, BitVec.setWidth_eq]

theorem step_withCommand (s : State) (w : U32) : step (s.withCommand w) = issue w { s with inReset := false } :=
  step_of_cmdWrite rfl (State.withCommand_script s w)

/-- R32: the accumulators after hardware reset are those of XXH32 with seed 0. -/
theorem resetWith_acc (p : Config.Params) : (State.resetWith p).acc = initAccs .xxh32 0 := by
  change (⟨0x24234428, 0x85EBCA77, 0x00000000, 0x61C8864F⟩ : Accs) = _
  decide

theorem resetWith_digest_getElem (p : Config.Params) (k : Fin 16) : (State.resetWith p).digest[k.val] = 0 :=
  Vector.getElem_replicate k.isLt

end Sys2Proof.Machine
end

section
/-! The statements of the scope family. -/
namespace Sys2Proof.Machine

/-- Settles O23: both forms of the write to `CMD` come down to `issue`, which acts by the decoder's verdict. -/
theorem stepRunsTheDecodedCommand : Obligations.StepRunsTheDecodedCommand := by
  refine ⟨fun s w rest i hr hs hd => ?command, fun s w rest hr hs hd => ?illegal, fun s w i hd => ?fetch⟩
  case command => rw [step_of_cmdWrite hr hs, issue_of_command hd]
  case illegal => rw [step_of_cmdWrite hr hs, issue_of_illegal hd]
  case fetch => rw [withFetchWord_toNat, step_withCommand, issue_of_command hd]

/-- Settles O25: the two forms of the script. -/
theorem stepTakesActionsInOrder : Obligations.StepTakesActionsInOrder :=
  ⟨fun _ _ _ => step_of_script_cons, fun _ => step_of_script_nil⟩

/-- Settles O37, field by field; only the layout of `ACC` (R22) needs more than the reset values of R32. -/
theorem resetMeetsTheInvariant : Obligations.ResetMeetsTheInvariant := fun p hp =>
  { params := hp
    dinSorted := resetWith_dinWf p
    dinInside := fun _ hc => nomatch hc
    acc := resetWith_acc p ▸ initAccs_layout .xxh32 0
    pcount := blockSize_pos .xxh32
    pcountMod := (Nat.zero_mod _).symm
    errCmd := rfl
    digest := fun k _ => resetWith_digest_getElem p k
    record := fun h => absurd rfl h }

end Sys2Proof.Machine
end

section
/-! SUPPORT. What one step can do to the block, said once and by cases: every statement about all steps is a split on
`StepEffect`. -/
namespace Sys2Proof.Machine

/-- The block when the first action of its script has been taken from it (R8). -/
@[simps] def State.taken (s : State) : State := { s with script := s.script.tail }

/-- `t` is `s` but for what the host holds: its four registers, the window inside `DIN_SIZE`, the reset signal and the
run. -/
structure HostSide (s t : State) : Prop where
  frame : t = { s with
    seedLo := t.seedLo, seedHi := t.seedHi, argAddr := t.argAddr, argLen := t.argLen,
    din := t.din, inReset := t.inReset, script := t.script, reads := t.reads }
  sorted : dinWf s.din → dinWf t.din
  inside : ∀ c ∈ t.din, c.1 < s.params.dinSize ∨ c ∈ s.din

/-- What a step that answers `t` did to the block: nothing but to the host's side of it, or one of the effects a command, an
illegal word or hardware reset has. -/
inductive StepEffect (s : State) : State → Prop
  /-- a read, a write elsewhere than to `CMD`, the release of hardware reset, or a command without effect -/
  | host {t : State} (ht : HostSide s t) : StepEffect s t
  /-- R112 -/
  | raised (f : ArchFault) (w : U32) (he : s.err = none) (hw : errCmdFits (some f) w) : StepEffect s (s.taken.raise f w)
  /-- R100, R101 -/
  | restarted (a : Alg) (seed : U64)
      (hi : CommandIsNext s .reset ∧ a = s.alg ∧ seed = s.aseed ∨ ∃ c, CommandIsNext s (.cfg c)) :
      StepEffect s ({ s.taken with alg := a, aseed := seed } : State).softReset
  /-- R60 -/
  | absorbed {t : State} (b : List Byte) (hi : CommandIsNext s .update) (hb : s.taken.Takes b)
      (ha : Absorbed s.taken b t) : StepEffect s t
  /-- R102 -/
  | digested (d : List Byte) (hi : CommandIsNext s .finalize) (he : s.err = none) (hd : d.length = digestLength s.alg) :
      StepEffect s { s.taken with digest := digestFile d, final := true }
  /-- R120 -/
  | hardReset (hi : ResetIsNext s) : StepEffect s s.taken.hardwareReset

theorem HostSide.taken (s : State) : HostSide s s.taken := ⟨rfl, id, fun _ => .inr⟩

/-- What a command does, as the effect of the step that takes it. -/
theorem stepEffect_of_exec {i : Instr} {s t : State} (hi : CommandIsNext s i) (h : exec i s.taken = .next t) :
    StepEffect s t := by
  obtain rfl | ⟨he, f, rfl, hw⟩ | ⟨a, seed, rfl, hr⟩ | ⟨rfl, b, hb, -, ha⟩ | ⟨rfl, he, -, d, -, hd, rfl⟩ :=
    exec_next_cases h
  · exact .host (.taken s)
  · exact .raised f _ he hw
  · obtain ⟨rfl, ha, hs⟩ | ⟨rfl, -⟩ := hr
    · exact .restarted a seed (.inl ⟨hi, ha, hs⟩)
    · exact .restarted a seed (.inr ⟨_, hi⟩)
  · exact .absorbed b hi hb ha
  · exact .digested d hi he hd

/-- What an illegal word does, as the effect of the step that takes it (R111, R114). -/
theorem stepEffect_raiseIllegal {s : State} {w : U32} (hw : decode w = .illegal) :
    StepEffect s (s.taken.raiseIllegal w) := by
  obtain ⟨-, e⟩ | ⟨he, e⟩ := raiseIllegal_cases s.taken w
  · rw [e]
    exact .host (.taken s)
  · rw [e]
    exact .raised .illegal w he hw

/-- A host write elsewhere than to `CMD` stays on the host's side. -/
theorem hostSide_writeReg (s : State) (r : Reg) (v : U32) : HostSide s (s.taken.writeReg r v) := by
  cases r <;> exact ⟨rfl, id, fun _ => .inr⟩

theorem hostSide_memWrite {s : State} {a n : Nat} (v : U32) (h : a + n ≤ s.params.dinSize) :
    HostSide s { s.taken with din := memWrite s.din a n v } where
  frame := rfl
  sorted hs := memWrite_keeps_wf hs a n v
  inside _ hc := (mem_memWrite hc).imp_left fun hlt => hlt.trans_le h

/-- Once what a step can do. -/
theorem step_effect {s t : State} (h : step s = .next t) : StepEffect s t := by
  obtain ⟨-, hstep⟩ | ⟨e, rest, hscript, hstep⟩ := step_cases s
  · cases hstep.symm.trans h
    exact .host ⟨rfl, id, fun _ => .inr⟩
  have htaken : { s with script := rest } = s.taken := by simp [State.taken, hscript]
  rw [htaken] at hstep
  obtain ⟨addr, width, rfl, -, hread⟩ | ⟨addr, width, v, rfl, -, hwrite⟩ | ⟨rfl, rfl⟩ | ⟨rfl, rfl⟩ :=
    portEvent_next (hstep.symm.trans h)
  case inl =>
    obtain ⟨o, -, rfl⟩ | ⟨a, n, bs, -, -, rfl⟩ := hostRead_next hread
    · exact .host ⟨rfl, id, fun _ => .inr⟩
    · exact .host ⟨rfl, id, fun _ => .inr⟩
  case inr.inl =>
    obtain ⟨hloc, hissue⟩ | ⟨o, r, -, -, -, rfl⟩ | ⟨o, -, -, rfl⟩ | ⟨a, n, hloc, rfl⟩ := hostWrite_next hwrite
    · obtain ⟨rfl, -, rfl, -⟩ := locate_register_iff.mp hloc
      obtain ⟨i, hi, e⟩ | ⟨hill, e⟩ := issue_cases v s.taken
      · exact stepEffect_of_exec ⟨v, rest, hscript, hi⟩ (e.symm.trans hissue)
      · cases e.symm.trans hissue
        exact stepEffect_raiseIllegal hill
    · exact .host (hostSide_writeReg s r v)
    · exact .host (.taken s)
    · obtain ⟨-, rfl, -, hin⟩ := locate_window_iff.mp hloc
      exact .host (hostSide_memWrite v hin)
  case inr.inr.inl => exact .hardReset ⟨rest, hscript⟩
  case inr.inr.inr => exact .host ⟨rfl, id, fun _ => .inr⟩

end Sys2Proof.Machine
end

section
/-! SUPPORT. Each effect a step can have keeps the invariant. -/
namespace Sys2Proof.Machine

/-- Mixing full blocks keeps the layout of `ACC` (R22). -/
theorem foldlM_mix_layout {a : Alg} {acc acc' : Accs} {blocks : List (List Byte)} (h : accLayout a acc)
    (hm : blocks.foldlM (mix a) acc = some acc') : accLayout a acc' := by
  induction blocks generalizing acc with
  | nil =>
    cases hm
    exact h
  | cons x xs ih =>
    rw [List.foldlM_cons] at hm
    obtain ⟨acc₁, h₁, h₂⟩ := Option.bind_eq_some_iff.mp hm
    exact ih (mix_layout h₁) h₂

theorem State.Inv.taken {s : State} (h : s.Inv) : s.taken.Inv := { h with }

theorem State.Inv.hostSide {s t : State} (h : s.Inv) (ht : HostSide s t) : t.Inv := by
  rw [ht.frame]
  exact { h with
    dinSorted := ht.sorted h.dinSorted
    dinInside := fun c hc => (ht.inside c hc).elim id (h.dinInside c) }

theorem State.Inv.raise {s : State} (h : s.Inv) {f : ArchFault} {w : U32} (hw : errCmdFits (some f) w) :
    (s.raise f w).Inv :=
  { h with
    errCmd := hw
    record := fun _ => rfl }

/-- A soft reset restores all of the invariant but what it says of the parameters and the window. -/
theorem softReset_inv {s : State} (hp : s.params.wf) (hsorted : dinWf s.din)
    (hinside : ∀ c ∈ s.din, c.1 < s.params.dinSize) : s.softReset.Inv where
  params := hp
  dinSorted := hsorted
  dinInside := hinside
  acc := initAccs_layout s.alg s.aseed
  pcount := blockSize_pos s.alg
  pcountMod := (Nat.zero_mod _).symm
  errCmd := rfl
  digest k _ := Vector.getElem_replicate k.isLt
  record h := absurd rfl h

/-- `PCOUNT` keeps step with `TOTAL_LEN`, across its wrap too, since `BS(ALG)` divides 2^64 (R25). -/
theorem Absorbed.pcountMod {s t : State} {b : List Byte} (ha : Absorbed s b t)
    (h : s.pcount.toNat = s.totalLen.toNat % blockSize s.alg) : t.pcount.toNat = t.totalLen.toNat % blockSize s.alg := by
  rw [ha.pcount, ha.totalLen, BitVec.toNat_add, BitVec.toNat_ofNat, Nat.add_mod_mod, Nat.mod_mod_of_dvd _ (blockSize_dvd _),
    h, Nat.mod_add_mod]

theorem State.Inv.absorbed {s t : State} (h : s.Inv) {b : List Byte} (ha : Absorbed s b t) : t.Inv := by
  rw [ha.frame]
  exact { h with
    acc := foldlM_mix_layout h.acc ha.acc
    pcount := ha.pcount ▸ Nat.mod_lt _ (blockSize_pos s.alg)
    pcountMod := ha.pcountMod h.pcountMod }

theorem State.Inv.digested {s : State} (h : s.Inv) {d : List Byte} (hd : d.length = digestLength s.alg) :
    ({ s with digest := digestFile d, final := true } : State).Inv :=
  { h with
    digest := fun k hk => hk.elim (nomatch ·) fun hle => digestFile_getElem_of_le k.isLt (hd ▸ hle) }

theorem hardwareReset_inv {s : State} (hp : s.params.wf) : s.hardwareReset.Inv :=
  { resetMeetsTheInvariant s.params hp with
    record := fun h => absurd rfl h }

/-- Settles O36: each effect of `StepEffect` keeps the invariant. -/
theorem stepKeepsTheInvariant : Obligations.StepKeepsTheInvariant := by
  intro s t h hstep
  cases step_effect hstep with
  | host ht => exact h.hostSide ht
  | raised f w _ hw => exact h.taken.raise hw
  | restarted a seed _ => exact softReset_inv h.params h.dinSorted h.dinInside
  | absorbed b _ _ ha => exact h.taken.absorbed ha
  | digested d _ _ hd => exact h.taken.digested hd
  | hardReset _ => exact hardwareReset_inv h.params

end Sys2Proof.Machine
end

section
/-! The statements of the state family about every step: which commands write an element. -/
namespace Sys2Proof.Machine

section
variable {s t : State} (ht : HostSide s t)
include ht

theorem HostSide.alg : t.alg = s.alg := by rw [ht.frame]
theorem HostSide.aseed : t.aseed = s.aseed := by rw [ht.frame]
theorem HostSide.totalLen : t.totalLen = s.totalLen := by rw [ht.frame]
theorem HostSide.final : t.final = s.final := by rw [ht.frame]
theorem HostSide.err : t.err = s.err := by rw [ht.frame]
theorem HostSide.errCmd : t.errCmd = s.errCmd := by rw [ht.frame]

end

section
variable {s t : State} {b : List Byte} (ha : Absorbed s b t)
include ha

theorem Absorbed.alg : t.alg = s.alg := by rw [ha.frame]
theorem Absorbed.aseed : t.aseed = s.aseed := by rw [ha.frame]
theorem Absorbed.final : t.final = s.final := by rw [ha.frame]
theorem Absorbed.err : t.err = s.err := by rw [ha.frame]
theorem Absorbed.errCmd : t.errCmd = s.errCmd := by rw [ha.frame]

/-- `TOTAL_LEN` grows by the length `UPDATE` was given (R63). -/
theorem Absorbed.totalLen_of_takes (hb : s.Takes b) : t.totalLen = s.totalLen + s.argLen.setWidth 64 := by
  rw [ha.totalLen, memRead_length hb.bytes, BitVec.ofNat_toNat]

end

/-- Settles O41: of the effects of a step only a restart writes `ALG` and `ASEED`, and that of `RESET` writes back the old
values. -/
theorem onlyCfgWritesAlgorithmAndSeed : Obligations.OnlyCfgWritesAlgorithmAndSeed := by
  intro s t hstep hne
  cases step_effect hstep with
  | host ht => exact absurd hne (by simp [ht.alg, ht.aseed])
  | raised f w _ _ => exact absurd hne (by simp)
  | restarted a seed hi =>
    obtain ⟨-, rfl, rfl⟩ | hcfg := hi
    · exact absurd hne (by simp)
    · exact .inl hcfg
  | absorbed b _ _ ha => exact absurd hne (by simp [ha.alg, ha.aseed])
  | digested d _ _ _ => exact absurd hne (by simp)
  | hardReset hi => exact .inr hi

/-- Settles O42: of the effects of a step only a digest sets `FINAL`, and only a restart and hardware reset clear it. -/
theorem finalFlagWriters : Obligations.FinalFlagWriters := by
  intro s t hstep
  cases step_effect hstep with
  | host ht => simp +contextual [ht.final]
  | raised f w _ _ => simp +contextual
  | restarted a seed hi => exact ⟨fun _ hf => (nomatch hf), fun _ _ => hi.imp And.left .inl⟩
  | absorbed b _ _ ha => simp +contextual [ha.final]
  | digested d hi _ _ => exact ⟨fun _ _ => hi, fun _ hf => (nomatch hf)⟩
  | hardReset hi => exact ⟨fun _ hf => (nomatch hf), fun _ _ => .inr (.inr hi)⟩

/-- Settles O43: a raise, an absorbed range and a digest need an unlocked block, and every other effect keeps the record or
clears it whole. -/
theorem recordedFaultStaysUntilReset : Obligations.RecordedFaultStaysUntilReset := by
  intro s t hstep herr
  cases step_effect hstep with
  | host ht => exact .inl ⟨ht.err, ht.errCmd⟩
  | raised f w he _ => exact absurd he herr
  | restarted a seed hi => exact .inr ⟨rfl, rfl, hi.imp And.left .inl⟩
  | absorbed b _ _ ha => exact .inl ⟨ha.err, ha.errCmd⟩
  | digested d _ _ _ => exact .inl ⟨rfl, rfl⟩
  | hardReset hi => exact .inr ⟨rfl, rfl, .inr (.inr hi)⟩

/-- Settles O44: an absorbed range adds to `TOTAL_LEN`, a restart and hardware reset clear it. -/
theorem totalLenWriters : Obligations.TotalLenWriters := by
  intro s t hstep hne
  cases step_effect hstep with
  | host ht => exact absurd ht.totalLen hne
  | raised f w _ _ => exact absurd rfl hne
  | restarted a seed hi => exact .inr ⟨rfl, hi.imp And.left .inl⟩
  | absorbed b hi hb ha => exact .inl ⟨hi, ha.totalLen_of_takes hb⟩
  | digested d _ _ _ => exact absurd rfl hne
  | hardReset hi => exact .inr ⟨rfl, .inr (.inr hi)⟩

end Sys2Proof.Machine
end

section
/-! SUPPORT. The register area at the port (R10, R11): what a read or a write of a register does, and which accesses
are refused. -/
namespace Sys2Proof.Machine

theorem portEvent_read {s : State} (hr : s.inReset = false) (addr width : Nat) :
    portEvent (.read addr width) s = hostRead addr width s := by
  simp [portEvent, hr]

theorem ofOffset_eq_some_iff {o : Nat} {r : Reg} : Reg.ofOffset o = some r ↔ o = r.offset := by
  constructor
  · intro h
    unfold Reg.ofOffset at h
    split at h <;> cases h <;> rfl
  · rintro rfl
    exact ofOffset_offset r

/-- The reserved offsets name no register (R10). -/
theorem ofOffset_reserved {o : Nat} (h : 0x03C ≤ o) : Reg.ofOffset o = none := by
  refine Option.eq_none_iff_forall_ne_some.mpr fun r hr => ?_
  have ho : o = r.offset := ofOffset_eq_some_iff.mp hr
  have hle : r.offset ≤ 0x038 := by cases r <;> decide
  omega

section
variable {s : State} (hr : s.inReset = false)
include hr

theorem portEvent_readReg (r : Reg) :
    portEvent (.read (s.params.base + r.offset) 4) s = .next (s.returned (s.readReg r)) := by
  rw [portEvent_read hr]
  simp [hostRead, State.readOffset]

theorem portEvent_writeReg {r : Reg} (hne : r ≠ .cmd) (v : U32) :
    portEvent (.write (s.params.base + r.offset) 4 v) s = .next (s.writeReg r v) := by
  rw [portEvent_write hr]
  cases r with
  | cmd => exact absurd rfl hne
  | _ => simp [hostWrite]

variable {o : Nat} (h0 : 0x03C ≤ o) (h1 : o < 0x100) (h2 : o % 4 = 0)
include h0 h1 h2

theorem portEvent_readReserved :
    portEvent (.read (s.params.base + o) 4) s = .next (s.returned 0) := by
  have hloc : locate s.params (s.params.base + o) 4 = .ok (.register o) := locate_register_iff.mpr ⟨rfl, h1, rfl, h2⟩
  rw [portEvent_read hr]
  simp [hostRead, hloc, State.readOffset, ofOffset_reserved h0]

theorem portEvent_writeReserved (v : U32) : portEvent (.write (s.params.base + o) 4 v) s = .next s := by
  have hloc : locate s.params (s.params.base + o) 4 = .ok (.register o) := locate_register_iff.mpr ⟨rfl, h1, rfl, h2⟩
  rw [portEvent_write hr]
  simp [hostWrite, hloc, ofOffset_reserved h0]

end

/-- An access of the register area in another form than an aligned 4-byte one (R35). -/
theorem locate_accessForm {p : Config.Params} {o width : Nat} (ho : o < 0x100) (h : width ≠ 4 ∨ o % 4 ≠ 0) :
    locate p (p.base + o) width = .error .accessForm := by
  have harea : Config.registerArea = 0x100 := rfl
  have hd : decodes p (p.base + o) = true := decodes_iff.mpr (by omega)
  rw [locate, if_pos hd, Nat.add_sub_cancel_left, locateOffset, if_pos (by omega), if_neg (by omega)]

/-- The registers in the order of their offsets (R10). -/
def Reg.all : List Reg :=
  [.cmd, .status, .seedLo, .seedHi, .argAddr, .argLen, .lenLo, .lenHi, .digest0, .digest1, .digest2, .digest3, .aseedLo,
    .aseedHi, .errCmd]

/-- The registers the host cannot write (R11). -/
def Reg.readOnly : List Reg := [.status, .lenLo, .lenHi, .digest0, .digest1, .digest2, .digest3, .aseedLo, .aseedHi, .errCmd]

theorem writeReg_readOnly {r : Reg} (h : r ∈ Reg.readOnly) (s : State) (v : U32) : s.writeReg r v = s := by
  fin_cases h <;> rfl

/-- What is read does not depend on the values read before. -/
theorem hostRead_idempotent {addr width : Nat} {s t : State} (h : hostRead addr width s = .next t) :
    ∃ v, t = s.returned v ∧ hostRead addr width t = .next (t.returned v) := by
  obtain ⟨o, hloc, rfl⟩ | ⟨a, n, bs, hloc, hmem, rfl⟩ := hostRead_next h
  · exact ⟨s.readOffset o, rfl, by simp [hostRead, hloc]; rfl⟩
  · exact ⟨leWord 32 bs, rfl, by simp [hostRead, hloc, hmem]⟩

end Sys2Proof.Machine
end

section
/-! The statements of the state family about the register map. -/
namespace Sys2Proof.Machine

/-- Settles O26: both tables of the statement are read off the registers themselves. -/
theorem registerAreaAccess : Obligations.RegisterAreaAccess := by
  refine fun s hr => ⟨?reads, fun o h0 h1 h2 => ?reserved, ?readOnly, fun v => ?plain, fun o width ho h => ?otherForms⟩
  case reads =>
    change ∀ ov ∈ Reg.all.map fun r => (r.offset, s.readReg r), _
    exact List.forall_mem_map.mpr fun r _ => portEvent_readReg hr r
  case reserved => exact ⟨portEvent_readReserved hr h0 h1 h2, portEvent_writeReserved hr h0 h1 h2⟩
  case readOnly =>
    change ∀ o ∈ Reg.readOnly.map Reg.offset, _
    refine List.forall_mem_map.mpr fun r h v => ?_
    rw [portEvent_writeReg hr (by rintro rfl; exact absurd h (by decide)), writeReg_readOnly h]
  case plain =>
    exact ⟨portEvent_writeReg hr (r := .seedLo) nofun v, portEvent_writeReg hr (r := .seedHi) nofun v,
      portEvent_writeReg hr (r := .argAddr) nofun v, portEvent_writeReg hr (r := .argLen) nofun v⟩
  case otherForms =>
    have hloc := locate_accessForm (p := s.params) ho h
    refine ⟨?_, fun v => ?_⟩
    · rw [portEvent_read hr, hostRead, hloc]
    · rw [portEvent_write hr, hostWrite, hloc]

/-- Settles O35: a read at the port is a host read, which answers the same again. -/
theorem readsHaveNoSideEffect : Obligations.ReadsHaveNoSideEffect := by
  intro s t addr width h
  obtain ⟨addr', width', he, hr, hread⟩ | ⟨addr', width', v, he, -⟩ | ⟨he, -⟩ | ⟨he, -⟩ := portEvent_next h
  case inl =>
    cases he
    obtain ⟨v, rfl, hagain⟩ := hostRead_idempotent hread
    exact ⟨v, rfl, (portEvent_read (s := s.returned v) hr ..).trans hagain⟩
  all_goals cases he

end Sys2Proof.Machine
end

section
/-! SUPPORT. `STATUS` and the digest registers bit by bit. -/
namespace Sys2Proof.Machine

/-- Bit `k` of `STATUS`, field by field (R12). -/
theorem getLsbD_status (s : State) (k : Nat) :
    s.status.getLsbD k =
      if k < 1 then s.final
      else if k < 4 then s.errCode.getLsbD (k - 1)
      else if k < 7 then s.alg.code.getLsbD (k - 4)
      else if k < 8 then false
      else if k < 14 then s.pcount.getLsbD (k - 8)
      else false := by
  simp only [State.status, BitVec.getLsbD_append, BitVec.getLsbD_zero, Nat.sub_sub]
  by_cases h1 : k < 1
  · simp [h1]
  · have h4 : k - 1 < 3 ↔ k < 4 := by omega
    have h7 : k - 4 < 3 ↔ k < 7 := by omega
    have h8 : k - 7 < 1 ↔ k < 8 := by omega
    have h14 : k - 8 < 6 ↔ k < 14 := by omega
    simp only [h1, h4, h7, h8, h14, if_false]

/-- A field of `n` bits is read off `STATUS` where its bits stand from `i` up. -/
theorem extractLsb'_status {n i : Nat} (s : State) (x : BitVec n) (h : ∀ k < n, s.status.getLsbD (i + k) = x.getLsbD k) :
    s.status.extractLsb' i n = x := by
  refine BitVec.eq_of_getLsbD_eq fun k hk => ?_
  rw [BitVec.getLsbD_extractLsb', h k hk]
  simp [hk]

theorem status_err (s : State) : s.status.extractLsb' 1 3 = s.errCode :=
  extractLsb'_status s _ fun k hk => by
    rw [getLsbD_status, if_neg (by omega), if_pos (by omega), Nat.add_sub_cancel_left]

theorem status_alg (s : State) : s.status.extractLsb' 4 3 = s.alg.code :=
  extractLsb'_status s _ fun k hk => by
    rw [getLsbD_status, if_neg (by omega), if_neg (by omega), if_pos (by omega), Nat.add_sub_cancel_left]

theorem status_pcount (s : State) : s.status.extractLsb' 8 6 = s.pcount :=
  extractLsb'_status s _ fun k hk => by
    rw [getLsbD_status, if_neg (by omega), if_neg (by omega), if_neg (by omega), if_neg (by omega), if_pos (by omega),
      Nat.add_sub_cancel_left]

theorem status_upper (s : State) : s.status.extractLsb' 14 18 = 0 :=
  extractLsb'_status s _ fun k hk => by
    rw [getLsbD_status, if_neg (by omega), if_neg (by omega), if_neg (by omega), if_neg (by omega), if_neg (by omega),
      BitVec.ofNat_eq_ofNat, BitVec.getLsbD_zero]

theorem code_toNat_lt (a : Alg) : a.code.toNat < 4 := by cases a <;> decide

/-- The bits of `ERR` are one-hot (R108). -/
theorem getLsbD_errCode (s : State) :
    s.errCode.getLsbD 0 = decide (s.err = some .bounds) ∧ s.errCode.getLsbD 1 = decide (s.err = some .misuse) ∧
      s.errCode.getLsbD 2 = decide (s.err = some .illegal) := by
  unfold State.errCode
  obtain he | ⟨f, he⟩ := Option.eq_none_or_eq_some s.err
  · rw [he]
    decide
  · rw [he]
    cases f <;> decide

theorem errCode_ne_zero_iff (s : State) : s.errCode ≠ 0 ↔ s.err ≠ none := by
  unfold State.errCode
  obtain he | ⟨f, he⟩ := Option.eq_none_or_eq_some s.err
  · rw [he]
    decide
  · rw [he]
    cases f <;> decide

/-- Byte `k` of the word read from a byte sequence is its byte `k` (R36). -/
theorem extractLsb'_leWord {n : Nat} (bs : List Byte) {k : Nat} (h : 8 * k + 8 ≤ n) :
    (leWord n bs).extractLsb' (8 * k) 8 = bs.getD k 0 := by
  refine BitVec.eq_of_getLsbD_eq fun i hi => ?_
  have hd : (8 * k + i) / 8 = k := by omega
  have hm : (8 * k + i) % 8 = i := by omega
  rw [BitVec.getLsbD_extractLsb', getLsbD_leWord, hd, hm]
  simp [hi, show 8 * k + i < n by omega]

theorem leWord_replicate_zero (n m : Nat) : leWord n (List.replicate m 0) = 0 := by
  induction m with
  | zero => rfl
  | succ m ih => rw [List.replicate_succ, leWord, ih]; simp

/-- A word of twice the width holds the first bytes low and the next ones high (R36). -/
theorem leWord_append {n : Nat} {lo : List Byte} (hlo : lo.length = n) (hi : List Byte) :
    leWord (8 * n + 8 * n) (lo ++ hi) = leWord (8 * n) hi ++ leWord (8 * n) lo := by
  refine BitVec.eq_of_getLsbD_eq fun k hk => ?_
  rw [BitVec.getLsbD_append, getLsbD_leWord]
  by_cases h : k < 8 * n
  · have hk8 : k / 8 < lo.length := by omega
    rw [List.getD_append _ _ _ _ hk8, getLsbD_leWord]
    simp [h, hk]
  · have hk8 : lo.length ≤ k / 8 := by omega
    have hd : k / 8 - lo.length = (k - 8 * n) / 8 := by omega
    have hm : (k - 8 * n) % 8 = k % 8 := by omega
    rw [List.getD_append_right _ _ _ _ hk8, hd, if_neg h, getLsbD_leWord, hm]
    simp [hk, show k - 8 * n < 8 * n by omega]

theorem status_resetWith (p : Config.Params) : (State.resetWith p).status = 0 := by
  change 0#18 ++ 0#6 ++ 0#1 ++ 0#3 ++ 0#3 ++ BitVec.ofBool false = 0
  decide

/-- The bytes of the store behind one digest register (R16). -/
theorem digestWord_byte {s : State} {j i : Nat} (hj : j < 4) (hi : i < 4) :
    (s.digestWord j).extractLsb' (8 * i) 8 = s.digest[4 * j + i] := by
  rw [State.digestWord, extractLsb'_leWord _ (by omega)]
  simp [List.getD, hi, show 4 * j + i < 16 by omega]

/-- A register whose four bytes are 0 reads 0. -/
theorem digestWord_eq_zero {s : State} {j : Nat} (hj : j < 4)
    (h : ∀ k : Fin 16, 4 * j ≤ k.val → s.digest[k.val] = 0) : s.digestWord j = 0 := by
  have hzero : (s.digest.toList.drop (4 * j)).take 4 = List.replicate 4 0 := by
    refine List.eq_replicate_iff.mpr ⟨by simp; omega, fun b hb => ?_⟩
    obtain ⟨i, hi, rfl⟩ := List.mem_iff_getElem.mp hb
    simp only [List.length_take, List.length_drop, Vector.length_toList] at hi
    simpa using h ⟨4 * j + i, by omega⟩ (Nat.le_add_right ..)
  rw [State.digestWord, hzero, leWord_replicate_zero]

end Sys2Proof.Machine
end

section
/-! The statements of the state family about `STATUS`, the digest registers and the two halves of a counter. -/
namespace Sys2Proof.Machine

/-- Settles O27: each field is read off `getLsbD_status`. -/
theorem statusFields : Obligations.StatusFields := by
  refine ⟨fun s => ?_, fun p => status_resetWith p⟩
  obtain ⟨hb, hm, hi⟩ := getLsbD_errCode s
  rw [status_err, status_alg, status_pcount, errCode_ne_zero_iff]
  refine ⟨?_, hb ▸ ?_, hm ▸ ?_, hi ▸ ?_, rfl, code_toNat_lt s.alg, ?_, rfl,
    fun h => h.pcount.trans_le (blockSize_le s.alg), status_upper s, Iff.rfl⟩
  all_goals rw [getLsbD_status]; rfl

/-- Settles O28: a register is the little-endian word of its four bytes of the store, and two registers are that of eight. -/
theorem digestRegistersShowTheDigest : Obligations.DigestRegistersShowTheDigest := by
  refine ⟨fun s k hk => ?bytes, fun s hs j hj h => ?zero, fun s => ⟨rfl, rfl, rfl, rfl⟩, fun s h hd => ?word32,
    fun s h hd => ?word64⟩
  case bytes =>
    rw [digestWord_byte (by omega) (Nat.mod_lt _ (by decide))]
    simp only [Nat.div_add_mod]
  case zero => exact digestWord_eq_zero hj fun k hk => hs.digest k (h.imp_right hk.trans')
  case word32 =>
    change leWord 32 (s.digest.toList.take 4) = h
    rw [hd, leWord_le32]
  case word64 =>
    have hsplit : s.digest.toList.take 4 ++ (s.digest.toList.drop 4).take 4 = le64 h := by
      rw [← List.take_add, hd]
    calc (leWord 32 ((s.digest.toList.drop 4).take 4) ++ leWord 32 (s.digest.toList.take 4) : U64)
      _ = leWord 64 (s.digest.toList.take 4 ++ (s.digest.toList.drop 4).take 4) :=
        (leWord_append (n := 4) (by simp) _).symm
      _ = h := by rw [hsplit, leWord_le64]

/-- Settles O31: a word is its high half before its low half. -/
theorem lengthAndSeedViews : Obligations.LengthAndSeedViews := by
  intro s
  simp only [State.readReg]
  exact ⟨BitVec.extractLsb'_append_extractLsb' (w := 32) (len := 32),
    BitVec.extractLsb'_append_extractLsb' (w := 32) (len := 32)⟩

end Sys2Proof.Machine
end

section
/-! SUPPORT. Which host registers a command reads (with other values in the others it does the same: R13, R14), what
`UPDATE` and `FINALIZE` leave, and which part of the seed `INIT` reads (R21). -/
namespace Sys2Proof.Machine

/-- `s` with other values in `SEED_LO` and `SEED_HI`. -/
@[simps] def State.withSeedArg (lo hi : U32) (s : State) : State := { s with seedLo := lo, seedHi := hi }

/-- `s` with other values in `ARG_ADDR` and `ARG_LEN`. -/
def State.withRange (a n : U32) (s : State) : State := { s with argAddr := a, argLen := n }

theorem absorb_withSeedArg (lo hi : U32) (s : State) (b : List Byte) :
    absorb (s.withSeedArg lo hi) b = (absorb s b).map (State.withSeedArg lo hi) := by
  by_cases hp : s.pcount.toNat < blockSize s.alg
  · by_cases hb : s.pcount.toNat + b.length < blockSize s.alg
    · rw [absorb_short hb, absorb_short (s := s.withSeedArg lo hi) hb]
      rfl
    · obtain ⟨acc, hacc, e⟩ := absorb_long hp (Nat.not_lt.mp hb)
      obtain ⟨acc', hacc', e'⟩ := absorb_long (s := s.withSeedArg lo hi) hp (Nat.not_lt.mp hb)
      obtain rfl : acc = acc' := Option.some.inj (hacc.symm.trans hacc')
      rw [e, e']
      rfl
  · rw [absorb_eq_none (Nat.not_lt.mp hp), absorb_eq_none (s := s.withSeedArg lo hi) (Nat.not_lt.mp hp)]
    rfl

theorem execUpdate_withSeedArg (lo hi : U32) (s : State) :
    execUpdate (s.withSeedArg lo hi) = mapNext (State.withSeedArg lo hi) (execUpdate s) := by
  have hr : (s.withSeedArg lo hi).outOfRange = s.outOfRange := rfl
  have hl : (s.withSeedArg lo hi).locked = s.locked := rfl
  have ha : (s.withSeedArg lo hi).addLength s.argLen = (s.addLength s.argLen).withSeedArg lo hi := rfl
  simp only [execUpdate, hr, hl, State.withSeedArg_final, State.withSeedArg_argLen, State.withSeedArg_argAddr,
    State.withSeedArg_din, ha, absorb_withSeedArg]
  split_ifs
  · rfl
  · rfl
  · rfl
  · rfl
  · cases memRead s.din s.argAddr.toNat s.argLen.toNat with
    | none => rfl
    | some b => cases h : absorb (s.addLength s.argLen) b <;> simp [h, mapNext]

/-- A change `f` of the state that `FINALIZE` does not see goes through it. -/
theorem execFinalize_map {f : State → State} {s : State} (hl : (f s).locked = s.locked) (hf : (f s).final = s.final)
    (hfin : fin (f s).alg (f s).acc (f s).totalLen (f s).pending = fin s.alg s.acc s.totalLen s.pending)
    (hstore : ∀ d, { f s with digest := d, final := true } = f { s with digest := d, final := true }) :
    execFinalize (f s) = mapNext f (execFinalize s) := by
  simp only [execFinalize, hl, hf, hfin]
  split_ifs
  · rfl
  · rfl
  · cases fin s.alg s.acc s.totalLen s.pending with
    | none => rfl
    | some d => exact congrArg _ (hstore _)

theorem raiseIllegal_withRange (a n : U32) (s : State) (w : U32) :
    (s.withRange a n).raiseIllegal w = (s.raiseIllegal w).withRange a n :=
  (apply_ite (State.withRange a n) (s.locked = true) s (s.raise .illegal w)).symm

theorem execCfg_withRange (c : BitVec 3) (a n : U32) (s : State) :
    execCfg c (s.withRange a n) = mapNext (State.withRange a n) (execCfg c s) := by
  unfold execCfg
  cases Alg.ofCode c with
  | some alg => rfl
  | none => exact congrArg _ (raiseIllegal_withRange a n s _)

/-- `UPDATE` changes the running computation and the record of a fault, nothing else (R60). -/
theorem execUpdate_frame {s t : State} (h : exec .update s = .next t) :
    t = { s with
      acc := t.acc, totalLen := t.totalLen, pbuf := t.pbuf, pcount := t.pcount,
      err := t.err, errCmd := t.errCmd, faultRecord := t.faultRecord } := by
  obtain rfl | ⟨-, f, rfl, -⟩ | ⟨a, seed, -, ⟨hi, -⟩ | ⟨hi, -⟩⟩ | ⟨-, b, -, -, ha⟩ | ⟨hi, -⟩ := exec_next_cases h
  · rfl
  · rfl
  · cases hi
  · cases hi
  · rw [ha.frame]
  · cases hi

/-- `FINALIZE` changes the digest store and `FINAL`, nothing else (R102). -/
theorem execFinalize_frame {s t : State} (h : exec .finalize s = .next t) :
    t = { s with digest := t.digest, final := t.final } := by
  obtain ⟨-, e⟩ | ⟨-, -, e⟩ | ⟨-, -, -, e⟩ | ⟨-, -, -, d, -, -, e⟩ := execFinalize_cases s
  all_goals cases e.symm.trans h
  · rfl
  · rfl
  · rfl

/-- An algorithm other than XXH64 reads the low half of the seed alone (R21). -/
theorem seedPart_congr {a : Alg} (ha : a ≠ .xxh64) {x y : U64} (h : x.setWidth 32 = y.setWidth 32) :
    seedPart a x = seedPart a y := by
  cases a with
  | xxh64 => exact absurd rfl ha
  | _ => exact congrArg (BitVec.setWidth 64) h

theorem initAccs_eq_of_seedPart {a : Alg} {x y : U64} (h : seedPart a x = seedPart a y) : initAccs a x = initAccs a y := by
  cases a <;> simp only [initAccs, h]

end Sys2Proof.Machine
end

section
/-! The statements of the state family about the operands and frames of commands, the initial accumulators and the
reset values. -/
namespace Sys2Proof.Machine

/-- Settles O29: a command other than `CFG` goes through a change of `SEED_LO` and `SEED_HI`. -/
theorem onlyCfgReadsTheSeedArgument : Obligations.OnlyCfgReadsTheSeedArgument := by
  refine ⟨fun _ _ => ⟨rfl, rfl⟩, fun s => ⟨rfl, ?high⟩, fun i s lo hi hne => ?reads⟩
  case high => exact (BitVec.extractLsb'_append_eq_of_le le_rfl).trans BitVec.extractLsb'_eq_self
  case reads =>
    cases i with
    | nop => rfl
    | cfg c => exact absurd rfl (hne c)
    | reset => rfl
    | update => exact execUpdate_withSeedArg lo hi s
    | finalize => exact execFinalize_map (f := State.withSeedArg lo hi) rfl rfl rfl fun _ => rfl

/-- Settles O30: a command other than `UPDATE` goes through a change of `ARG_ADDR` and `ARG_LEN`. -/
theorem onlyUpdateReadsTheRangeArguments : Obligations.OnlyUpdateReadsTheRangeArguments := by
  refine ⟨fun _ _ => ⟨rfl, rfl⟩, fun s t h => ?leaves, fun i s a n hne => ?reads⟩
  case leaves =>
    obtain ⟨-, -, -, haddr, hlen, -⟩ := exec_frame h
    exact ⟨haddr, hlen⟩
  case reads =>
    cases i with
    | nop => rfl
    | cfg c => exact execCfg_withRange c a n s
    | reset => rfl
    | update => exact absurd rfl hne
    | finalize => exact execFinalize_map (f := State.withRange a n) rfl rfl rfl fun _ => rfl

/-- Settles O45, from the common frame and those of `UPDATE` and `FINALIZE`. -/
theorem commandFrames : Obligations.CommandFrames := by
  refine ⟨fun i s t h => ?_, fun _ _ => execUpdate_frame, fun _ _ => execFinalize_frame, fun s t h => ?_, fun a s t h => ?_⟩
  · obtain ⟨h1, h2, h3, h4, h5, hdin, h6, h7, h8⟩ := exec_frame h
    exact ⟨h1, h2, h3, h4, h5, h6, h7, h8, fun a => by rw [hdin]⟩
  · cases h
    exact ⟨rfl, rfl, rfl⟩
  · cases (exec_cfg_code a s).symm.trans h
    rfl

/-- Settles O52: `INIT` reads the seed through `seedPart` alone. -/
theorem initialAccumulators : Obligations.InitialAccumulators := by
  refine fun aseed => ⟨?xxh32, rfl, rfl, ?mm3x86, fun a x ha h => initAccs_eq_of_seedPart (seedPart_congr ha h)⟩
  case xxh32 => exact congrArg xxh32Init (lane32_setWidth (aseed.setWidth 32))
  case mm3x86 => exact congrArg mm3x86Init (lane32_setWidth (aseed.setWidth 32))

/-- Settles O38: the accumulators after hardware reset are those `CFG` computes from seed 0. -/
theorem resetValues : Obligations.ResetValues := by
  refine fun p => ⟨rfl, rfl, rfl, rfl, rfl, rfl, rfl, resetWith_acc p, rfl, rfl, rfl, rfl, rfl, rfl, rfl, fun _ => rfl,
    fun m => ?_⟩
  have hseed : ({ State.resetWith p with din := m } : State).seedArg = 0 := BitVec.zero_append_zero
  change exec (.cfg Alg.xxh32.code) _ = _
  rw [exec_cfg_code, hseed, State.softReset, ← resetWith_acc p]
  rfl

end Sys2Proof.Machine
end

section
/-! SUPPORT. The window at the port (R35 to R39): what a read or a write inside it does. -/
namespace Sys2Proof.Machine

section
variable {s : State} (hr : s.inReset = false) {a n : Nat} (hn : n = 1 ∨ n = 2 ∨ n = 4) (hin : a + n ≤ s.params.dinSize)
include hr hn hin

theorem portEvent_readWindow {bs : List Byte} (hm : memRead s.din a n = some bs) :
    portEvent (.read (s.params.base + 0x100 + a) n) s = .next (s.returned (leWord 32 bs)) := by
  rw [portEvent_read hr]
  simp [hostRead, locate_window hn hin, hm]

theorem portEvent_readWindow_unwritten (hm : memRead s.din a n = none) :
    portEvent (.read (s.params.base + 0x100 + a) n) s = .fault .unwrittenDin := by
  rw [portEvent_read hr]
  simp [hostRead, locate_window hn hin, hm]

theorem portEvent_writeWindow (v : U32) :
    portEvent (.write (s.params.base + 0x100 + a) n v) s = .next { s with din := memWrite s.din a n v } := by
  rw [portEvent_write hr]
  simp [hostWrite, locate_window hn hin]

end

/-- R39: `UPDATE` stops where its checks pass and its range, which is then not empty, covers an unwritten byte. -/
theorem execUpdate_of_unwritten {s : State} (he : s.err = none) (hf : s.final = false)
    (hin : s.argAddr.toNat + s.argLen.toNat ≤ s.params.dinSize)
    (hm : memRead s.din s.argAddr.toNat s.argLen.toNat = none) : exec .update s = .fault .unwrittenDin := by
  have hl : s.locked = false := (locked_eq_false_iff s).mpr he
  have hr : s.outOfRange = false := (outOfRange_eq_false_iff s).mpr hin
  have h0 : s.argLen.toNat ≠ 0 := fun h0 => by simp [h0, memRead] at hm
  simp [exec, execUpdate, hl, hf, hr, h0, hm]

/-- A little-endian word is the sum of its bytes at their places (R36). -/
theorem leWord_eq_ofNat_sum (w : Nat) (bs : List Byte) :
    leWord w bs = BitVec.ofNat w (((List.range bs.length).map fun k => (bs.getD k 0).toNat * 256 ^ k).sum) := by
  induction bs with
  | nil => rfl
  | cons b bs ih =>
    have hdisjoint : b.setWidth w &&& leWord w bs <<< 8 = 0#w := by
      refine BitVec.eq_of_getLsbD_eq fun i hi => ?_
      by_cases h8 : i < 8
      · simp [h8]
      · simp [BitVec.getLsbD_of_ge b i (Nat.not_lt.mp h8)]
    have hlow : b.setWidth w = BitVec.ofNat w b.toNat := (BitVec.ofNat_toNat w b).symm
    have hhigh : leWord w bs <<< 8 = leWord w bs * BitVec.ofNat w 256 := by
      rw [BitVec.shiftLeft_eq_mul_twoPow]
      exact congrArg _ (BitVec.eq_of_toNat_eq (by simp [BitVec.toNat_twoPow]))
    rw [leWord, ← BitVec.add_eq_or_of_and_eq_zero _ _ hdisjoint, hlow, hhigh, ih, ← BitVec.ofNat_mul, ← BitVec.ofNat_add,
      List.length_cons, List.range_succ_eq_map]
    simp [pow_succ, ← mul_assoc, List.sum_map_mul_right, Function.comp_def]

/-- A byte read inside the range of a write gives that byte of the value (R36, R37). -/
theorem memRead_memWrite_byte (m : List Host.Cell) (a : Nat) (v : U32) {n k : Nat} (hk : k < n) :
    memRead (memWrite m a n v) (a + k) 1 = some [v.extractLsb' (8 * k) 8] := by
  refine memRead_eq_some_iff.mpr ⟨rfl, fun j hj => ?_⟩
  obtain rfl : j = 0 := by omega
  rw [dinByte_memWrite, if_pos (by omega)]
  simp

/-! What leaves the window as it is. -/

@[simp] theorem raiseIllegal_din (s : State) (w : U32) : (s.raiseIllegal w).din = s.din := by
  obtain ⟨-, e⟩ | ⟨-, e⟩ := raiseIllegal_cases s w
  · rw [e]
  · rw [e, State.raise_din]

@[simp] theorem writeReg_din (s : State) (r : Reg) (v : U32) : (s.writeReg r v).din = s.din := by
  cases r <;> rfl

theorem issue_din {w : U32} {s t : State} (h : issue w s = .next t) : t.din = s.din := by
  obtain ⟨i, -, e⟩ | ⟨-, e⟩ := issue_cases w s
  · obtain ⟨-, -, -, -, -, hdin, -⟩ := exec_frame (e.symm.trans h)
    exact hdin
  · cases e.symm.trans h
    exact raiseIllegal_din s w

theorem hostRead_din {addr width : Nat} {s t : State} (h : hostRead addr width s = .next t) : t.din = s.din := by
  obtain ⟨v, rfl, -⟩ := hostRead_idempotent h
  rfl

/-- A host write that changes the window is a write inside it (R37). -/
theorem hostWrite_of_din_ne {addr width : Nat} {v : U32} {s t : State} (h : hostWrite addr width v s = .next t)
    (hne : t.din ≠ s.din) :
    ∃ a, addr = s.params.base + 0x100 + a ∧ (width = 1 ∨ width = 2 ∨ width = 4) ∧ a + width ≤ s.params.dinSize := by
  obtain ⟨-, hissue⟩ | ⟨o, r, -, -, -, rfl⟩ | ⟨o, -, -, rfl⟩ | ⟨a, n, hloc, -⟩ := hostWrite_next h
  · exact absurd (issue_din hissue) hne
  · exact absurd (writeReg_din s r v) hne
  · exact absurd rfl hne
  · obtain ⟨haddr, -, hform⟩ := locate_window_iff.mp hloc
    exact ⟨a, haddr, hform⟩

end Sys2Proof.Machine
end

section
/-! SUPPORT. Which transactions are refused (R34, R35). -/
namespace Sys2Proof.Machine

/-- No command is refused. -/
theorem exec_ne_refused (i : Instr) (s : State) (r : Refusal) : exec i s ≠ .refused r := by
  cases i with
  | nop => nofun
  | cfg c =>
    simp only [exec, execCfg]
    cases Alg.ofCode c <;> nofun
  | reset => nofun
  | update =>
    obtain ⟨-, e⟩ | ⟨-, -, e⟩ | ⟨-, -, -, e⟩ | ⟨-, -, -, -, e⟩ | ⟨b, -, -, e⟩ | ⟨b, t, -, -, e, -⟩ := execUpdate_cases s
    case inr.inr.inr.inr.inl =>
      rw [e]
      split <;> nofun
    all_goals
      rw [e]
      nofun
  | finalize =>
    obtain ⟨-, e⟩ | ⟨-, -, e⟩ | ⟨-, -, -, e⟩ | ⟨-, -, -, d, -, -, e⟩ := execFinalize_cases s
    all_goals
      rw [e]
      nofun

theorem issue_ne_refused (w : U32) (s : State) (r : Refusal) : issue w s ≠ .refused r := by
  obtain ⟨i, -, e⟩ | ⟨-, e⟩ := issue_cases w s
  · rw [e]
    exact exec_ne_refused i s r
  · rw [e]
    nofun

/-- A read is refused for its form alone. -/
theorem hostRead_refused_iff {addr width : Nat} {s : State} {r : Refusal} :
    hostRead addr width s = .refused r ↔ locate s.params addr width = .error r := by
  unfold hostRead
  cases locate s.params addr width with
  | error r' => simp
  | ok target =>
    cases target with
    | register o => simp
    | window a n =>
      simp only [reduceCtorEq, iff_false]
      split <;> nofun

/-- A write is refused for its form alone, and not for the command it may carry. -/
theorem hostWrite_refused_iff {addr width : Nat} {v : U32} {s : State} {r : Refusal} :
    hostWrite addr width v s = .refused r ↔ locate s.params addr width = .error r := by
  unfold hostWrite
  cases locate s.params addr width with
  | error r' => simp
  | ok target =>
    cases target with
    | register o =>
      simp only [reduceCtorEq, iff_false]
      split
      · exact issue_ne_refused v s r
      · nofun
      · nofun
    | window a n => simp

section
variable {s : State} (hr : s.inReset = false) {addr width : Nat} {r : Refusal}
include hr

theorem portEvent_read_refused_iff :
    portEvent (.read addr width) s = .refused r ↔ locate s.params addr width = .error r := by
  rw [portEvent_read hr, hostRead_refused_iff]

theorem portEvent_write_refused_iff {v : U32} :
    portEvent (.write addr width v) s = .refused r ↔ locate s.params addr width = .error r := by
  rw [portEvent_write hr, hostWrite_refused_iff]

end

/-- Exactly the forms of R35 have a target. -/
theorem exists_locate_error_iff {p : Config.Params} {addr width : Nat} :
    (∃ r, locate p addr width = .error r) ↔
      ¬((∃ o, addr = p.base + o ∧ o < 0x100 ∧ o % 4 = 0 ∧ width = 4) ∨
        (∃ a, addr = p.base + 0x100 + a ∧ (width = 1 ∨ width = 2 ∨ width = 4) ∧ a + width ≤ p.dinSize)) := by
  constructor
  · rintro ⟨r, h⟩ (⟨o, haddr, ho, halign, hwidth⟩ | ⟨a, haddr, hform⟩)
    · cases h.symm.trans (locate_register_iff.mpr ⟨haddr, ho, hwidth, halign⟩)
    · cases h.symm.trans (locate_window_iff.mpr ⟨haddr, rfl, hform⟩)
  · intro hno
    cases h : locate p addr width with
    | error r => exact ⟨r, rfl⟩
    | ok target =>
      cases target with
      | register o =>
        obtain ⟨haddr, ho, hwidth, halign⟩ := locate_register_iff.mp h
        exact absurd (.inl ⟨o, haddr, ho, halign, hwidth⟩) hno
      | window a n =>
        obtain ⟨haddr, -, hform⟩ := locate_window_iff.mp h
        exact absurd (.inr ⟨a, haddr, hform⟩) hno

theorem locate_of_not_decoded {p : Config.Params} {addr : Nat}
    (h : addr < p.base ∨ p.base + 0x100 + p.dinSize ≤ addr) (width : Nat) : locate p addr width = .error .notDecoded := by
  have hd : ¬decodes p addr = true := by
    rw [decodes_iff]
    omega
  rw [locate, if_neg hd]

/-- Inside the block's space a refusal is for the form of the access. -/
theorem eq_accessForm_of_locate_error {p : Config.Params} {addr width : Nat} {r : Refusal} (h0 : p.base ≤ addr)
    (h1 : addr < p.base + 0x100 + p.dinSize) (h : locate p addr width = .error r) : r = .accessForm := by
  obtain ⟨-, hd⟩ | ⟨hr, -⟩ := locate_error h
  · exact absurd (decodes_iff.mpr ⟨h0, h1⟩) (by simp [hd])
  · exact hr

end Sys2Proof.Machine
end

section
/-! SUPPORT. A host at the port can feed any chunks that fit the window. -/
namespace Sys2Proof.Machine

/-- What feeding `n` bytes of a stream leaves: of the block, only the elements of the running computation and the host's side
may differ; the length has grown by `n`, and R25 is kept. -/
structure Streamed (s t : State) (n : Nat) : Prop where
  frame : t = { s with
    seedLo := t.seedLo, seedHi := t.seedHi, argAddr := t.argAddr, argLen := t.argLen, acc := t.acc,
    totalLen := t.totalLen, pbuf := t.pbuf, pcount := t.pcount, din := t.din, reads := t.reads }
  totalLen : t.totalLen = s.totalLen + BitVec.ofNat 64 n
  pcount : s.pcount.toNat < blockSize s.alg → t.pcount.toNat < blockSize s.alg

theorem Streamed.trans {s t u : State} {m n : Nat} (h : Streamed s t m) (h' : Streamed t u n) : Streamed s u (m + n) where
  frame := by rw [h'.frame, h.frame]
  totalLen := by rw [h'.totalLen, h.totalLen, BitVec.ofNat_add, add_assoc]
  pcount hp := by
    have halg : t.alg = s.alg := by rw [h.frame]
    exact halg ▸ h'.pcount (halg ▸ h.pcount hp)

theorem HostActs.streamed {s t : State} (h : HostActs s t) : Streamed s t 0 := by
  rw [h.frame]
  exact ⟨rfl, (BitVec.add_zero _).symm, id⟩

theorem Absorbed.streamed {s t : State} {b : List Byte} (h : Absorbed s b t) : Streamed s t b.length where
  frame := by rw [h.frame]
  totalLen := h.totalLen
  pcount _ := h.pcount ▸ Nat.mod_lt _ (blockSize_pos s.alg)

/-- A block that takes chunks: outside reset, unlocked, not final, and R25 and the limit of R6 hold. -/
structure Feedable (s : State) : Prop where
  released : s.inReset = false
  unlocked : s.err = none
  running : s.final = false
  pcount : s.pcount.toNat < blockSize s.alg
  dinSize : s.params.dinSize < 2 ^ 32

theorem Feedable.streamed {s t : State} {n : Nat} (h : Feedable s) (hs : Streamed s t n) : Feedable t := by
  rw [hs.frame]
  exact { h with pcount := hs.pcount h.pcount }

theorem softReset_feedable {s : State} (h : s.Inv) (hr : s.inReset = false) : Feedable s.softReset where
  released := hr
  unlocked := rfl
  running := rfl
  pcount := blockSize_pos s.alg
  dinSize := by
    obtain ⟨-, -, hmax, -⟩ := h.params
    exact hmax.trans_lt (by decide)

/-- The host can have the block take one chunk. -/
theorem Feedable.exists_update {s : State} (h : Feedable s) {c : List Byte} (hc : c.length ≤ s.params.dinSize) :
    ∃ s0 s1, HostActs s s0 ∧ s0.Takes c ∧ exec .update s0 = .next s1 ∧ Streamed s s1 c.length := by
  obtain ⟨s0, hacts, htakes⟩ := hostActs_takes h.released h.unlocked h.running hc h.dinSize
  obtain ⟨s1, hexec, habsorbed⟩ := execUpdate_of_takes htakes (h.streamed hacts.streamed).pcount
  have hstreamed : Streamed s s1 (0 + c.length) := hacts.streamed.trans habsorbed.streamed
  exact ⟨s0, s1, hacts, htakes, hexec, by rwa [Nat.zero_add] at hstreamed⟩

/-- The host can have the block take a stream, chunk by chunk. -/
theorem Feedable.exists_fedAtPort {s : State} (h : Feedable s) {chunks : List (List Byte)}
    (hc : ∀ c ∈ chunks, c.length ≤ s.params.dinSize) :
    ∃ t, FedAtPort s chunks t ∧ Streamed s t chunks.flatten.length := by
  induction chunks generalizing s with
  | nil => exact ⟨s, .refl s, (HostActs.refl s).streamed⟩
  | cons c cs ih =>
    obtain ⟨hfirst, hrest⟩ := List.forall_mem_cons.mp hc
    obtain ⟨s0, s1, hacts, htakes, hexec, hs1⟩ := h.exists_update hfirst
    have hparams : s1.params = s.params := by rw [hs1.frame]
    obtain ⟨t, hfed, ht⟩ := ih (h.streamed hs1) (hparams ▸ hrest)
    refine ⟨t, ⟨s0, s1, hacts, htakes, hexec, hfed⟩, ?_⟩
    rw [List.flatten_cons, List.length_append]
    exact hs1.trans ht

/-- `FINALIZE` of such a block completes (R102). -/
theorem Feedable.exists_finalize {s : State} (h : Feedable s) :
    ∃ d, exec .finalize s = .next { s with digest := digestFile d, final := true } := by
  have hpending : s.pending.length < blockSize s.alg := by
    rw [pending_length (h.pcount.le.trans (blockSize_le s.alg))]
    exact h.pcount
  obtain ⟨he, -⟩ | ⟨-, hf, -⟩ | ⟨-, -, hle, -⟩ | ⟨-, -, -, d, -, -, e⟩ := execFinalize_cases s
  · exact absurd h.unlocked he
  · exact absurd (h.running.symm.trans hf) (by decide)
  · exact absurd hpending (Nat.not_lt.mpr hle)
  · exact ⟨d, e⟩

end Sys2Proof.Machine
end

section
/-! The statements of the memory family. -/
namespace Sys2Proof.Machine

/-- Settles O18, by induction on the chunks (`Feedable.exists_fedAtPort`) from the state `RESET` leaves. -/
theorem everyStreamHasADigest : Obligations.EveryStreamHasADigest := by
  intro s r chunks hinv hr hc hreset
  obtain rfl : s.softReset = r := by
    cases hreset
    rfl
  have hfeedable : Feedable s.softReset := softReset_feedable hinv hr
  obtain ⟨t, hfed, hstreamed⟩ := hfeedable.exists_fedAtPort (chunks := chunks) hc
  obtain ⟨d, hfin⟩ := (hfeedable.streamed hstreamed).exists_finalize
  have hlen : t.totalLen = BitVec.ofNat 64 chunks.flatten.length := by
    rw [hstreamed.totalLen, State.softReset_totalLen]
    exact BitVec.zero_add _
  have hhashes : Hashes s.softReset chunks (digestFile d) := ⟨t, _, hfed.fed, hfin, rfl⟩
  refine ⟨t, _, hfed, hfin, rfl, ?_, ?_, ?_, ?_, ?_, hlen, hhashes⟩
  all_goals rw [hstreamed.frame]; rfl

/-- Settles O19: a range with an unwritten byte has no bytes to read (`memRead_eq_none_iff`). -/
theorem unwrittenBytesHaveNoValue : Obligations.UnwrittenBytesHaveNoValue :=
  ⟨fun _ _ => rfl, fun _ _ => rfl,
    fun _ _ _ k hr hn hin hk hb => portEvent_readWindow_unwritten hr hn hin (memRead_eq_none_iff.mpr ⟨k, hk, hb⟩),
    fun _ k he hf hin hk hb => execUpdate_of_unwritten he hf hin (memRead_eq_none_iff.mpr ⟨k, hk, hb⟩)⟩

/-- Settles O32: a read and a write are refused exactly where `locate` finds no target. -/
theorem otherAccessFormsAreRefused : Obligations.OtherAccessFormsAreRefused := by
  intro s addr width hr
  simp only [portEvent_read_refused_iff hr, portEvent_write_refused_iff hr]
  exact ⟨exists_locate_error_iff, fun _ => exists_locate_error_iff,
    fun hout => ⟨locate_of_not_decoded hout width, fun _ => locate_of_not_decoded hout width⟩,
    fun h0 h1 => ⟨fun _ => eq_accessForm_of_locate_error h0 h1, fun _ _ => eq_accessForm_of_locate_error h0 h1⟩⟩

/-- Settles O33: the write by `portEvent_writeWindow`, and the converse by what each action at the port does. -/
theorem windowWriteSetsItsBytes : Obligations.WindowWriteSetsItsBytes := by
  refine ⟨fun s a n v hr hn hin => ?write, fun e s t h hne => ?converse⟩
  case write => exact ⟨_, portEvent_writeWindow hr hn hin v, rfl, dinByte_memWrite s.din a n v⟩
  case converse =>
    obtain ⟨addr, width, -, -, hread⟩ | ⟨addr, width, v, rfl, -, hwrite⟩ | ⟨rfl, -⟩ | ⟨-, rfl⟩ := portEvent_next h
    · exact absurd (hostRead_din hread) hne
    · obtain ⟨a, rfl, hform⟩ := hostWrite_of_din_ne hwrite hne
      exact .inr ⟨a, width, v, rfl, hform⟩
    · exact .inl rfl
    · exact absurd rfl hne

/-- Settles O34: the word read is the sum of its bytes, and a byte read after a write is that byte of the value. -/
theorem windowReadsReturnWhatWasWritten : Obligations.WindowReadsReturnWhatWasWritten := by
  refine ⟨fun s a n bs hr hn hin hlen hb => ?sum, fun s t a k v hr hin hk h => ?byte⟩
  case sum =>
    subst hlen
    rw [portEvent_readWindow hr hn hin (memRead_eq_some_iff.mpr ⟨rfl, hb⟩), leWord_eq_ofNat_sum]
    rfl
  case byte =>
    cases (portEvent_writeWindow hr (by decide) hin v).symm.trans h
    refine (portEvent_readWindow (s := { s with din := memWrite s.din a 4 v }) hr (.inl rfl) ?_
      (memRead_memWrite_byte s.din a v hk)).trans ?_
    · change a + k + 1 ≤ s.params.dinSize
      omega
    · simp [State.returned, leWord]

end Sys2Proof.Machine
end

section
/-! SUPPORT. The decoder by its verdicts, and a command word by its three fields (R46). -/
namespace Sys2Proof

/-- R48: a well-formed command is decoded from its own word. -/
theorem decode_encode {i : Instr} (h : i.wellFormed = true) : decode (encode i) = .command i := by
  cases i with
  | nop => decide
  | cfg c =>
    revert c
    decide
  | reset => decide
  | update => decide
  | finalize => decide

/-- Once what the decoder can answer (R49): a well-formed command, on its own word, or `Illegal`. -/
theorem decode_cases (w : U32) :
    (∃ i : Instr, i.wellFormed = true ∧ w = encode i ∧ decode w = .command i) ∨ decode w = .illegal := by
  unfold decode
  simp only [and_fullMask]
  split_ifs with hnop hcfg hreset hupdate hfinalize
  · exact .inl ⟨.nop, rfl, hnop, rfl⟩
  · obtain ⟨hc, hw⟩ := (and_cfgMask_iff w).mp hcfg
    exact .inl ⟨.cfg (algField w), decide_eq_true hc, hw, rfl⟩
  · exact .inl ⟨.reset, rfl, hreset, rfl⟩
  · exact .inl ⟨.update, rfl, hupdate, rfl⟩
  · exact .inl ⟨.finalize, rfl, hfinalize, rfl⟩
  · exact .inr rfl

theorem decode_eq_command_iff {w : U32} {i : Instr} : decode w = .command i ↔ i.wellFormed = true ∧ w = encode i := by
  constructor
  · intro h
    obtain ⟨j, hj, hw, hd⟩ | hd := decode_cases w
    · obtain rfl : i = j := Decoded.command.inj (h.symm.trans hd)
      exact ⟨hj, hw⟩
    · exact nomatch h.symm.trans hd
  · rintro ⟨hi, rfl⟩
    exact decode_encode hi

theorem decode_eq_illegal_iff {w : U32} : decode w = .illegal ↔ ¬∃ i : Instr, i.wellFormed = true ∧ w = encode i := by
  simp only [← decode_eq_command_iff]
  cases decode w with
  | command i => simp
  | illegal => simp

/-- Words joined of parts of the same widths are equal exactly part by part. -/
theorem append_eq_append_iff {n m : Nat} {x x' : BitVec n} {y y' : BitVec m} :
    x ++ y = x' ++ y' ↔ x = x' ∧ y = y' := by
  constructor
  · intro h
    have hx := congrArg (BitVec.extractLsb' m n) h
    have hy := congrArg (BitVec.extractLsb' 0 m) h
    rw [BitVec.extractLsb'_append_eq_left, BitVec.extractLsb'_append_eq_left] at hx
    rw [BitVec.extractLsb'_append_eq_right, BitVec.extractLsb'_append_eq_right] at hy
    exact ⟨hx, hy⟩
  · rintro ⟨rfl, rfl⟩
    rfl

/-- The bits [31:4] are the reserved field over `ALGF` (R46). -/
theorem extractLsb'_eq_reserved_append_algField (w : U32) :
    w.extractLsb' 4 28 = w.extractLsb' 7 25 ++ algField w :=
  (BitVec.extractLsb'_append_extractLsb'_eq_extractLsb' (start₁ := 4) (len₁ := 3) (len₂ := 25) rfl).symm

theorem extractLsb'_eq_zero_iff_fields (w : U32) :
    w.extractLsb' 4 28 = 0 ↔ w.extractLsb' 7 25 = 0 ∧ algField w = 0 := by
  rw [extractLsb'_eq_reserved_append_algField]
  exact append_eq_append_iff (x' := 0) (y' := 0)

/-- A command word is known by its three fields (R46). -/
theorem eq_commandWord_iff {w : U32} {op : BitVec 4} {c : BitVec 3} :
    w = commandWord op c ↔ (w.extractLsb' 7 25 = 0 ∧ algField w = c) ∧ w.extractLsb' 0 4 = op := by
  have hw : w = w.extractLsb' 7 25 ++ algField w ++ w.extractLsb' 0 4 := by
    rw [← extractLsb'_eq_reserved_append_algField]
    exact (BitVec.extractLsb'_append_extractLsb' (w := 28) (len := 4)).symm
  calc w = commandWord op c
      ↔ w.extractLsb' 7 25 ++ algField w ++ w.extractLsb' 0 4 = 0#25 ++ c ++ op := by rw [← hw]; rfl
    _ ↔ _ := by rw [append_eq_append_iff, append_eq_append_iff]; rfl

/-- R48: the word of a command with no operand has its `OP` and nothing in [31:4]. -/
theorem eq_commandWord_zero_iff {w : U32} {op : BitVec 4} :
    w = commandWord op 0 ↔ (w.extractLsb' 0 4).toNat = op.toNat ∧ w.extractLsb' 4 28 = 0 := by
  rw [eq_commandWord_iff, extractLsb'_eq_zero_iff_fields, BitVec.toNat_inj, and_comm]

/-- The code in `ALGF` is one of 0 to 3 exactly when bit 6 is clear (R50). -/
theorem algField_lt_iff (w : U32) : (algField w).toNat < 4 ↔ w.getLsbD 6 = false := by
  have hbit : w.getLsbD 6 = (algField w).getLsbD 2 := by simp [algField]
  rw [hbit]
  generalize algField w = c
  revert c
  decide

/-- R48: the legal words by their fields. -/
theorem exists_eq_encode_iff (w : U32) :
    (∃ i : Instr, i.wellFormed = true ∧ w = encode i) ↔
      ((w.extractLsb' 0 4).toNat = 0 ∨ (w.extractLsb' 0 4).toNat = 2 ∨ (w.extractLsb' 0 4).toNat = 3 ∨
        (w.extractLsb' 0 4).toNat = 4) ∧ w.extractLsb' 4 28 = 0 ∨
      (w.extractLsb' 0 4).toNat = 1 ∧ w.getLsbD 6 = false ∧ w.extractLsb' 7 25 = 0 := by
  constructor
  · rintro ⟨i, hi, hw⟩
    cases i with
    | nop => exact .inl ((eq_commandWord_zero_iff.mp hw).imp_left .inl)
    | cfg c =>
      obtain ⟨⟨hr, rfl⟩, hop⟩ := eq_commandWord_iff.mp hw
      exact .inr ⟨congrArg BitVec.toNat hop, (algField_lt_iff w).mp (of_decide_eq_true hi), hr⟩
    | reset => exact .inl ((eq_commandWord_zero_iff.mp hw).imp_left (.inr ∘ .inl))
    | update => exact .inl ((eq_commandWord_zero_iff.mp hw).imp_left (.inr ∘ .inr ∘ .inl))
    | finalize => exact .inl ((eq_commandWord_zero_iff.mp hw).imp_left (.inr ∘ .inr ∘ .inr))
  · rintro (⟨hop | hop | hop | hop, h0⟩ | ⟨hop, h6, hr⟩)
    · exact ⟨.nop, rfl, eq_commandWord_zero_iff.mpr ⟨hop, h0⟩⟩
    · exact ⟨.reset, rfl, eq_commandWord_zero_iff.mpr ⟨hop, h0⟩⟩
    · exact ⟨.update, rfl, eq_commandWord_zero_iff.mpr ⟨hop, h0⟩⟩
    · exact ⟨.finalize, rfl, eq_commandWord_zero_iff.mpr ⟨hop, h0⟩⟩
    · exact ⟨.cfg (algField w), decide_eq_true ((algField_lt_iff w).mpr h6),
        eq_commandWord_iff.mpr ⟨⟨hr, rfl⟩, BitVec.eq_of_toNat_eq hop⟩⟩

end Sys2Proof
end

section
/-! The statements of the encoding family. -/
namespace Sys2Proof.Machine

/-- Settles O20: a command's own word decodes to it (`decode_encode`), and no other word does (`decode_cases`). -/
theorem decodeInvertsEncode : Obligations.DecodeInvertsEncode := fun _ _ => decode_eq_command_iff

/-- Settles O21: the illegal words are the complement of the legal ones, taken `OP` by `OP` (`exists_eq_encode_iff`). -/
theorem illegalWordsAreTheReservedSpace : Obligations.IllegalWordsAreTheReservedSpace := by
  refine fun w => ⟨?kinds, fun hd s he => ?raises⟩
  case kinds =>
    rw [decode_eq_illegal_iff, exists_eq_encode_iff]
    have hop : (w.extractLsb' 0 4).toNat = 0 ∨ (w.extractLsb' 0 4).toNat = 1 ∨ (w.extractLsb' 0 4).toNat = 2 ∨
        (w.extractLsb' 0 4).toNat = 3 ∨ (w.extractLsb' 0 4).toNat = 4 ∨ 5 ≤ (w.extractLsb' 0 4).toNat := by omega
    generalize (w.extractLsb' 0 4).toNat = op at hop
    obtain rfl | rfl | rfl | rfl | rfl | hop := hop
    · simp
    · simp [imp_iff_not_or]
    · simp
    · simp
    · simp
    · refine iff_of_true ?_ (.inl hop)
      rintro (⟨hlow, -⟩ | ⟨hone, -⟩) <;> omega
  case raises =>
    obtain ⟨hlocked, -⟩ | ⟨-, hraise⟩ := raiseIllegal_cases s w
    · exact absurd he hlocked
    · rw [issue_of_illegal hd, hraise]
      rfl

end Sys2Proof.Machine
end

section
/-! SUPPORT. The bit operations in the words of their rules: the rotation, the bytes of a range one by one, and the packed word
as the or and as the xor of its bytes. -/
namespace Sys2Proof.Machine

theorem rotateLeft_eq_or {w : Nat} (x : BitVec w) {r : Nat} (hr : r < w) :
    x.rotateLeft r = x <<< r ||| x >>> (w - r) := BitVec.rotateLeft_eq_rotateLeftAux_of_lt hr

/-- R55. -/
theorem rotl32_eq_rotateLeft (x : U32) {r : Nat} (hr : r < 32) : rotl32 x r = x.rotateLeft r := (rotateLeft_eq_or x hr).symm

/-- R56. -/
theorem rotl64_eq_rotateLeft (x : U64) {r : Nat} (hr : r < 64) : rotl64 x r = x.rotateLeft r := (rotateLeft_eq_or x hr).symm

theorem readLE32_eq_none_iff {s : List Byte} {o : Nat} : readLE32 s o = none ↔ s.length < o + 4 := by
  simp [Option.eq_none_iff_forall_ne_some, readLE32_eq_some_iff]

theorem readLE64_eq_none_iff {s : List Byte} {o : Nat} : readLE64 s o = none ↔ s.length < o + 8 := by
  simp [Option.eq_none_iff_forall_ne_some, readLE64_eq_some_iff]

/-- The `n` bytes at `i` of R7, one by one. -/
theorem take_drop_eq_map_getD {s : List Byte} {i n : Nat} (h : i + n ≤ s.length) :
    (s.drop i).take n = (List.range n).map fun k => s.getD (i + k) 0 := by
  refine List.ext_getElem (by simp; omega) fun k hk _ => ?_
  have hin : i + k < s.length := by
    rw [List.length_take] at hk
    omega
  simp [hin]

/-- A word of eight bytes is the word of the next four over the word of the first four (R58). -/
theorem leWord64_append {lo : List Byte} (hlo : lo.length = 4) (hi : List Byte) :
    leWord 64 (lo ++ hi) = (leWord 32 lo).setWidth 64 ||| (leWord 32 hi).setWidth 64 <<< 32 :=
  calc leWord 64 (lo ++ hi)
      = leWord 32 hi ++ leWord 32 lo := leWord_append hlo hi
    _ = (leWord 32 hi).setWidth 64 <<< 32 ||| (leWord 32 lo).setWidth 64 := by
        rw [BitVec.append_def, BitVec.shiftLeftZeroExtend_eq, BitVec.setWidth'_eq]
    _ = _ := BitVec.or_comm ..

/-- The first byte shares no bit with the ones above it, so xor puts them together as or does (R59). -/
theorem leWord_cons_eq_xor (n : Nat) (b : Byte) (bs : List Byte) :
    leWord n (b :: bs) = b.setWidth n ^^^ leWord n bs <<< 8 := by
  refine BitVec.eq_of_getLsbD_eq fun i hi => ?_
  by_cases h8 : i < 8
  · simp [leWord, h8]
  · simp [leWord, BitVec.getLsbD_of_ge b i (Nat.not_lt.mp h8)]

theorem leWord_append_eq_xor (n : Nat) (lo hi : List Byte) :
    leWord n (lo ++ hi) = leWord n lo ^^^ leWord n hi <<< (8 * lo.length) := by
  induction lo with
  | nil => simp [leWord]
  | cons b bs ih =>
    rw [List.cons_append, leWord_cons_eq_xor, ih, leWord_cons_eq_xor, BitVec.shiftLeft_xor_distrib, BitVec.xor_assoc,
      ← BitVec.shiftLeft_add, List.length_cons, Nat.mul_succ]

/-- The word of `m` bytes is the xor of the bytes at their places (R59). -/
theorem leWord_map_range_eq_foldl_xor (n m : Nat) (byte : Nat → Byte) :
    leWord n ((List.range m).map byte) =
      (List.range m).foldl (fun acc k => acc ^^^ (byte k).setWidth n <<< (8 * k)) 0 := by
  induction m with
  | zero => rfl
  | succ m ih =>
    rw [List.range_succ, List.map_append, leWord_append_eq_xor, ih, List.foldl_append]
    simp [leWord]

/-- R59. -/
theorem packLE_eq_foldl_xor {n : Nat} {s : List Byte} {i j : Nat} (hij : i ≤ j) (hj : j ≤ s.length) (hn : j - i ≤ n / 8) :
    packLE n s i j =
      some ((List.range (j - i)).foldl (fun acc k => acc ^^^ (s.getD (i + k) 0).setWidth n <<< (8 * k)) 0) := by
  rw [packLE_of_le hij hj hn, take_drop_eq_map_getD (by omega), leWord_map_range_eq_foldl_xor]

end Sys2Proof.Machine
end

section
/-! The statements of the bit-operation family. -/
namespace Sys2Proof.Machine

/-- Settles O47: the library's rotation is the same two shifts (`rotateLeft_eq_or`). -/
theorem rotatesMoveEveryBit : Obligations.RotatesMoveEveryBit :=
  ⟨fun x _ _ hr => rotl32_eq_rotateLeft x (Nat.lt_succ_of_le hr), fun x _ _ hr => rotl64_eq_rotateLeft x (Nat.lt_succ_of_le hr)⟩

/-- Settles O48: the four bytes taken one by one (`take_drop_eq_map_getD`), each shift moved inside. -/
theorem readLE32AtAnyOffset : Obligations.ReadLE32AtAnyOffset := by
  refine fun s o => ⟨fun h => ?bytes, readLE32_eq_none_iff.mpr⟩
  have hrange : List.range 4 = [0, 1, 2, 3] := rfl
  rw [readLE32_of_le h, take_drop_eq_map_getD h, hrange]
  simp [leWord, BitVec.shiftLeft_or_distrib, ← BitVec.shiftLeft_add, BitVec.or_assoc]

/-- Settles O49: the eight bytes are four and four (`leWord64_append`), and their word is their sum (`leWord_eq_ofNat_sum`). -/
theorem readLE64AtAnyOffset : Obligations.ReadLE64AtAnyOffset := by
  refine fun s o => ⟨fun h => ⟨_, _, readLE32_of_le (by omega), readLE32_of_le (by omega), ?halves, ?sum⟩,
    readLE64_eq_none_iff.mpr⟩
  case halves =>
    have hsplit : (s.drop o).take 8 = (s.drop o).take 4 ++ (s.drop (o + 4)).take 4 := by
      rw [← List.drop_drop]
      exact List.take_add (i := 4) (j := 4)
    rw [readLE64_of_le h, hsplit, leWord64_append (by simp; omega)]
  case sum =>
    rw [readLE64_of_le h, take_drop_eq_map_getD h, leWord_eq_ofNat_sum]
    rfl

/-- Settles O50: the packed word takes its bytes in by xor, one place after another (`packLE_eq_foldl_xor`). -/
theorem packLEIsTheXorOfItsBytes : Obligations.PackLEIsTheXorOfItsBytes :=
  fun _ _ _ hij hj => ⟨packLE_eq_foldl_xor (n := 32) hij hj, packLE_eq_foldl_xor (n := 64) hij hj⟩

end Sys2Proof.Machine
end

section
/-! SUPPORT. `UPDATE` path by path (R60, R113). -/
namespace Sys2Proof.Machine

theorem execUpdate_of_locked {s : State} (he : s.err ≠ none) : exec .update s = .next s := by
  simp [exec, execUpdate, (locked_iff s).mpr he]

section
variable {s : State} (he : s.err = none)
include he

theorem execUpdate_of_final (hf : s.final = true) :
    exec .update s = .next (s.raise .misuse 0x00000003) := by
  simp [exec, execUpdate, (locked_eq_false_iff s).mpr he, hf]
  rfl

theorem execUpdate_of_outOfRange (hf : s.final = false) (hout : s.params.dinSize < s.argAddr.toNat + s.argLen.toNat) :
    exec .update s = .next (s.raise .bounds 0x00000003) := by
  simp [exec, execUpdate, (locked_eq_false_iff s).mpr he, hf, (outOfRange_iff s).mpr hout]
  rfl

theorem execUpdate_of_argLen_zero (hf : s.final = false) (hin : s.argAddr.toNat + s.argLen.toNat ≤ s.params.dinSize)
    (h0 : s.argLen = 0) : exec .update s = .next s := by
  simp [exec, execUpdate, (locked_eq_false_iff s).mpr he, hf, (outOfRange_eq_false_iff s).mpr hin, h0]

end

/-- Step 1 of R60 as `UPDATE` runs it. -/
theorem execUpdate_short {s : State} {b : List Byte} (h : s.Takes b) (h0 : 0 < b.length)
    (hlt : s.pcount.toNat + b.length < blockSize s.alg) :
    exec .update s = .next { s with
      totalLen := s.totalLen + s.argLen.setWidth 64
      pbuf := overwrite s.pbuf s.pcount.toNat b
      pcount := BitVec.ofNat 6 (s.pcount.toNat + b.length) } := by
  rw [execUpdate_of_pos h h0, absorb_short (s := s.addLength s.argLen) hlt]
  rfl

/-- Steps 2 to 4 of R60 as `UPDATE` runs them. -/
theorem execUpdate_long {s : State} {b : List Byte} (h : s.Takes b) (hp : s.pcount.toNat < blockSize s.alg)
    (hle : blockSize s.alg ≤ s.pcount.toNat + b.length) :
    ∃ acc, (fullBlocks (blockSize s.alg) (s.pending ++ b)).foldlM (mix s.alg) s.acc = some acc ∧
      exec .update s = .next { s with
        acc := acc
        totalLen := s.totalLen + s.argLen.setWidth 64
        pbuf := overwrite s.pbuf 0 (leftover (blockSize s.alg) (s.pending ++ b))
        pcount := BitVec.ofNat 6 ((s.pcount.toNat + b.length) % blockSize s.alg) } := by
  obtain ⟨acc, hacc, e⟩ := absorb_long (s := s.addLength s.argLen) hp hle
  refine ⟨acc, hacc, ?_⟩
  rw [execUpdate_of_pos h (by omega), e]
  rfl

theorem leftover_pending_length {s : State} (hp : s.pcount.toNat < blockSize s.alg) (b : List Byte) :
    (leftover (blockSize s.alg) (s.pending ++ b)).length = (s.pcount.toNat + b.length) % blockSize s.alg := by
  rw [leftover_length, List.length_append, pending_length (hp.le.trans (blockSize_le s.alg))]

/-- R113: the checks of `UPDATE`, as the statements write them. -/
theorem State.Takes.checks {s : State} {b : List Byte} (h : s.Takes b) :
    s.err = none ∧ s.final = false ∧ s.argAddr.toNat + s.argLen.toNat ≤ s.params.dinSize :=
  ⟨(locked_eq_false_iff s).mp h.unlocked, h.running, h.inRange⟩

/-- The bytes an `UPDATE` takes are `ARG_LEN` many, as `TOTAL_LEN` counts them (R63). -/
theorem State.Takes.ofNat_length {s : State} {b : List Byte} (h : s.Takes b) :
    BitVec.ofNat 64 b.length = s.argLen.setWidth 64 := by
  rw [memRead_length h.bytes, BitVec.ofNat_toNat]

end Sys2Proof.Machine
end

section
/-! SUPPORT. The elements of the running computation as a value of its own, on which feeding a stream is one function
(R4, R65). -/
namespace Sys2Proof.Machine

/-- The elements of the running computation (R4), `PBUF` as far as it is read. -/
structure Computation where
  alg : Alg
  acc : Accs
  totalLen : U64
  pcount : BitVec 6
  pending : List Byte
  final : Bool
  err : Option ArchFault

/-- The running computation of a block. -/
def State.computation (s : State) : Computation :=
  ⟨s.alg, s.acc, s.totalLen, s.pcount, s.pending, s.final, s.err⟩

/-- R25. -/
def Computation.Bounded (r : Computation) : Prop := r.pcount.toNat < blockSize r.alg

/-- What `UPDATE` of the bytes `b` makes of the running computation (R60, R63). -/
def Computation.feed (r : Computation) (b : List Byte) : Option Computation :=
  ((fullBlocks (blockSize r.alg) (r.pending ++ b)).foldlM (mix r.alg) r.acc).map fun acc =>
    { r with
      acc := acc
      totalLen := r.totalLen + BitVec.ofNat 64 b.length
      pcount := BitVec.ofNat 6 ((r.pcount.toNat + b.length) % blockSize r.alg)
      pending := leftover (blockSize r.alg) (r.pending ++ b) }

/-- The new `PCOUNT` fits its 6 bits. -/
theorem toNat_ofNat_mod_blockSize (n : Nat) (a : Alg) : (BitVec.ofNat 6 (n % blockSize a)).toNat = n % blockSize a := by
  have hle := blockSize_le a
  have hlt := Nat.mod_lt n (blockSize_pos a)
  rw [BitVec.toNat_ofNat]
  exact Nat.mod_eq_of_lt (by omega)

/-- Feeding goes on from what the first part of the stream left (`fullBlocks_append`). -/
theorem Computation.feed_append (r : Computation) (x y : List Byte) :
    r.feed (x ++ y) = (r.feed x).bind fun r' => r'.feed y := by
  obtain ⟨hblocks, hleft⟩ := fullBlocks_append (blockSize_pos r.alg) (r.pending ++ x) y
  simp only [feed, ← List.append_assoc, hblocks, hleft, List.foldlM_append]
  cases (fullBlocks (blockSize r.alg) (r.pending ++ x)).foldlM (mix r.alg) r.acc with
  | none => rfl
  | some acc =>
    simp only [Option.map_some, Option.bind_some, Option.bind_eq_bind, List.length_append, toNat_ofNat_mod_blockSize,
      Nat.mod_add_mod, Nat.add_assoc, BitVec.ofNat_add, BitVec.add_assoc]

/-- Feeding nothing changes nothing where R25 holds (R64). -/
theorem State.computation_feed_nil {s : State} (hp : s.computation.Bounded) :
    s.computation.feed [] = some s.computation := by
  have hlt : s.pcount.toNat < blockSize s.alg := hp
  have hpending : s.pending.length < blockSize s.alg := by
    rwa [pending_length (hlt.le.trans (blockSize_le s.alg))]
  simp [Computation.feed, fullBlocks_of_lt hpending, leftover_of_lt hpending, Nat.mod_eq_of_lt hlt, State.computation]

theorem Computation.feed_bounded {r r' : Computation} {b : List Byte} (h : r.feed b = some r') : r'.Bounded := by
  obtain ⟨acc, -, rfl⟩ := Option.map_eq_some_iff.mp h
  exact (toNat_ofNat_mod_blockSize ..).trans_lt (Nat.mod_lt _ (blockSize_pos r.alg))

/-- Feeding leaves the lock and `FINAL` as they are. -/
theorem Computation.feed_keeps {r r' : Computation} {b : List Byte} (h : r.feed b = some r') :
    r'.err = r.err ∧ r'.final = r.final := by
  obtain ⟨acc, -, rfl⟩ := Option.map_eq_some_iff.mp h
  exact ⟨rfl, rfl⟩

theorem Absorbed.feed {s t : State} {b : List Byte} (h : Absorbed s b t) :
    s.computation.feed b = some t.computation := by
  have hpcount : t.pcount = BitVec.ofNat 6 ((s.pcount.toNat + b.length) % blockSize s.alg) := by
    rw [← h.pcount, BitVec.ofNat_toNat, BitVec.setWidth_eq]
  have halg : t.alg = s.alg := by rw [h.frame]
  have hfinal : t.final = s.final := by rw [h.frame]
  have herr : t.err = s.err := by rw [h.frame]
  simp [Computation.feed, State.computation, h.acc, halg, h.totalLen, hpcount, h.pending, hfinal, herr]

theorem SameRun.computation {s t : State} (h : SameRun s t) : s.computation = t.computation := by
  simp only [State.computation, State.pending, h.alg, h.acc, h.totalLen, h.pbuf, h.pcount, h.final, h.err]

/-- However the stream is cut, what `UPDATE`s leave of the running computation is the one function `feed` of it. -/
theorem Fed.feed {s t : State} {chunks : List (List Byte)} (hp : s.computation.Bounded) (h : Fed s chunks t) :
    s.computation.feed chunks.flatten = some t.computation := by
  induction chunks generalizing s with
  | nil => rw [← SameRun.computation h, List.flatten_nil, State.computation_feed_nil hp]
  | cons c cs ih =>
    obtain ⟨s0, s1, hsame, htakes, hexec, hfed⟩ := h
    rw [hsame.computation] at hp ⊢
    obtain ⟨s1', e, habsorbed⟩ := execUpdate_of_takes htakes hp
    cases e.symm.trans hexec
    calc s0.computation.feed (c ++ cs.flatten)
        = (s0.computation.feed c).bind fun r => r.feed cs.flatten := Computation.feed_append ..
      _ = s1.computation.feed cs.flatten := by rw [habsorbed.feed, Option.bind_some]
      _ = some t.computation := ih (Computation.feed_bounded habsorbed.feed) hfed

/-- Where R25 does not hold, an `UPDATE` that passes its checks and answers had nothing to read. -/
theorem execUpdate_of_not_bounded {s t : State} {b : List Byte} (hp : ¬ s.computation.Bounded) (hb : s.Takes b)
    (h : exec .update s = .next t) : s.argLen = 0 ∧ t = s := by
  obtain h0 | h0 := Nat.eq_zero_or_pos b.length
  · have hlen : s.argLen = 0 := BitVec.eq_of_toNat_eq ((memRead_length hb.bytes).symm.trans h0)
    obtain ⟨he, hf, hin⟩ := hb.checks
    cases (execUpdate_of_argLen_zero he hf hin hlen).symm.trans h
    exact ⟨hlen, rfl⟩
  · rw [execUpdate_of_pos hb h0, absorb_eq_none (s := s.addLength s.argLen) (Nat.not_lt.mp hp)] at h
    cases h

/-- Where R25 does not hold, no byte can be fed, and the running computation stays. -/
theorem Fed.computation_of_not_bounded {s t : State} {chunks : List (List Byte)} (hp : ¬ s.computation.Bounded)
    (h : Fed s chunks t) : t.computation = s.computation := by
  induction chunks generalizing s with
  | nil => exact (SameRun.computation h).symm
  | cons c cs ih =>
    obtain ⟨s0, s1, hsame, htakes, hexec, hfed⟩ := h
    rw [hsame.computation] at hp ⊢
    obtain ⟨-, rfl⟩ := execUpdate_of_not_bounded hp htakes hexec
    exact ih hp hfed

/-- R65 for two blocks: the running computation a feeding leaves is a function of the one it starts from and of the stream. -/
theorem Fed.computation_eq {s s' t t' : State} {chunks chunks' : List (List Byte)} (hs : s.computation = s'.computation)
    (hstream : chunks.flatten = chunks'.flatten) (h : Fed s chunks t) (h' : Fed s' chunks' t') :
    t.computation = t'.computation := by
  by_cases hp : s.computation.Bounded
  · refine Option.some.inj ?_
    rw [← h.feed hp, ← h'.feed (hs ▸ hp), hs, hstream]
  · rw [h.computation_of_not_bounded hp, h'.computation_of_not_bounded (hs ▸ hp), hs]

/-- Feeding a stream leaves the lock and `FINAL` as they are. -/
theorem Fed.keeps {s t : State} {chunks : List (List Byte)} (h : Fed s chunks t) : t.err = s.err ∧ t.final = s.final := by
  by_cases hp : s.computation.Bounded
  · exact Computation.feed_keeps (h.feed hp)
  · have e := h.computation_of_not_bounded hp
    exact ⟨congrArg Computation.err e, congrArg Computation.final e⟩

/-- The digest that `FINALIZE` stores is the finalization of the running computation (R102). -/
theorem execFinalize_digest {s t : State} (he : s.err = none) (hf : s.final = false) (h : exec .finalize s = .next t) :
    (fin s.alg s.acc s.totalLen s.pending).map digestFile = some t.digest := by
  obtain ⟨hl, -⟩ | ⟨-, hfin, -⟩ | ⟨-, -, -, e⟩ | ⟨-, -, -, d, hd, -, e⟩ := execFinalize_cases s
  · exact absurd he hl
  · exact absurd (hf.symm.trans hfin) (by decide)
  · cases e.symm.trans h
  · cases e.symm.trans h
    rw [hd]
    rfl

/-- Equal running computations, unlocked and without a digest, have equal digests. -/
theorem digest_eq_of_computation_eq {s s' t t' : State} (hs : s.computation = s'.computation) (he : s.err = none)
    (hf : s.final = false) (h : exec .finalize s = .next t) (h' : exec .finalize s' = .next t') : t.digest = t'.digest := by
  injection hs with halg hacc htotal hpcount hpending hfinal herr
  refine Option.some.inj ?_
  rw [← execFinalize_digest he hf h, ← execFinalize_digest (herr ▸ he) (hfinal ▸ hf) h', halg, hacc, htotal, hpending]

end Sys2Proof.Machine
end

section
/-! The statements of the streaming family. -/
namespace Sys2Proof.Machine

/-- Settles O5, path by path; the last two are `execUpdate_short` and `execUpdate_long`. -/
theorem updateRunsTheStreamingBuffer : Obligations.UpdateRunsTheStreamingBuffer := by
  refine fun s => ⟨issue_of_command (by decide) s, execUpdate_of_locked, execUpdate_of_final, execUpdate_of_outOfRange,
    execUpdate_of_argLen_zero, fun b hb h0 hlt => ?short, fun b hb hp hle => ?long⟩
  case short =>
    refine ⟨_, overwrite_getElem s.pbuf s.pcount.toNat b, ?_⟩
    rw [execUpdate_short hb h0 hlt, BitVec.ofNat_add, BitVec.ofNat_toNat, BitVec.setWidth_eq]
  case long =>
    obtain ⟨acc, hacc, e⟩ := execUpdate_long hb hp hle
    refine ⟨acc, _, hacc, fun k hk => ?_, e⟩
    rw [overwrite_getElem, ← leftover_pending_length hp b]
    simp

/-- Settles O13, by the paths of `UPDATE` that answer a next state. -/
theorem totalLenGrowsByArgLen : Obligations.TotalLenGrowsByArgLen := by
  intro s t h
  obtain ⟨he, e⟩ | ⟨-, hf, e⟩ | ⟨-, -, hout, e⟩ | ⟨-, -, -, -, e⟩ | ⟨b, hb, hp, -⟩ | ⟨b, t', hb, -, e, ha⟩ :=
    execUpdate_cases s
  · cases e.symm.trans h
    rw [if_neg fun ⟨he', _⟩ => he he']
  · cases e.symm.trans h
    rw [if_neg (by simp [hf]), State.raise_totalLen]
  · cases e.symm.trans h
    rw [if_neg (by omega), State.raise_totalLen]
  · cases e.symm.trans h
  · obtain ⟨h0, rfl⟩ := execUpdate_of_not_bounded (Nat.not_lt.mpr hp) hb h
    rw [if_pos hb.checks, h0]
    exact (BitVec.add_zero _).symm
  · cases e.symm.trans h
    rw [if_pos hb.checks, ha.totalLen, hb.ofNat_length]

/-- Settles O14: the three paths of `UPDATE` that an empty range leaves. -/
theorem emptyUpdateChangesNothing : Obligations.EmptyUpdateChangesNothing := by
  intro s he h0
  have hsum : s.argAddr.toNat + s.argLen.toNat = s.argAddr.toNat := by rw [h0]; rfl
  exact ⟨fun hf hin => execUpdate_of_argLen_zero he hf (hsum.trans_le hin) h0, execUpdate_of_final he,
    fun hf hout => execUpdate_of_outOfRange he hf (hout.trans_eq hsum.symm)⟩

/-- Settles O15: both feedings leave the same running computation (`Fed.computation_eq`), and `FINALIZE` reads nothing else. -/
theorem chunkInvariance : Obligations.ChunkInvariance := by
  intro s t t' chunks h h'
  have hstream : chunks.flatten = [chunks.flatten].flatten := by simp
  have hcomp : t.computation = t'.computation := Fed.computation_eq rfl hstream h h'
  refine ⟨congrArg Computation.acc hcomp, congrArg Computation.totalLen hcomp, congrArg Computation.pcount hcomp,
    congrArg Computation.pending hcomp, fun u u' he hf hu hu' => ?_⟩
  obtain ⟨herr, hfinal⟩ := h.keeps
  exact digest_eq_of_computation_eq hcomp (herr.trans he) (hfinal.trans hf) hu hu'

end Sys2Proof.Machine
end

section
/-! SUPPORT. The MurmurHash3 x86_128 mixer in the words of its rules: its lanes by the library's rotation (R66, R68, R69), the
four words of a block, and the tail of a lane (R70). -/
namespace Sys2Proof.Machine

/-- R68. -/
theorem kmix86_eq_rotateLeft (c c' k : U32) {r : Nat} (hr : r < 32) : kmix86 c r c' k = (k * c).rotateLeft r * c' := by
  rw [kmix86, rotl32_eq_rotateLeft _ hr]

/-- R66, R68. -/
theorem kmix86Lanes_eq_rotateLeft (k : U32) :
    kmix86Lane1 k = (k * 0x239B961B).rotateLeft 15 * 0xAB0E9789 ∧
    kmix86Lane2 k = (k * 0xAB0E9789).rotateLeft 16 * 0x38B34AE5 ∧
    kmix86Lane3 k = (k * 0x38B34AE5).rotateLeft 17 * 0xA1E38B93 ∧
    kmix86Lane4 k = (k * 0xA1E38B93).rotateLeft 18 * 0x239B961B :=
  ⟨kmix86_eq_rotateLeft _ _ k (by decide), kmix86_eq_rotateLeft _ _ k (by decide),
    kmix86_eq_rotateLeft _ _ k (by decide), kmix86_eq_rotateLeft _ _ k (by decide)⟩

/-- R69. -/
theorem mm3x86Lane_eq_rotateLeft (h k added const : U32) {r : Nat} (hr : r < 32) :
    mm3x86Lane h k r added const = ((h ^^^ k).rotateLeft r + added) * 5 + const := by
  rw [mm3x86Lane, rotl32_eq_rotateLeft _ hr]

/-- A block of four little-endian words is read back word by word (R57, R98). -/
theorem readLE32_four_words (k1 k2 k3 k4 : U32) :
    readLE32 (le32 k1 ++ le32 k2 ++ le32 k3 ++ le32 k4) 0 = some k1 ∧
    readLE32 (le32 k1 ++ le32 k2 ++ le32 k3 ++ le32 k4) 4 = some k2 ∧
    readLE32 (le32 k1 ++ le32 k2 ++ le32 k3 ++ le32 k4) 8 = some k3 ∧
    readLE32 (le32 k1 ++ le32 k2 ++ le32 k3 ++ le32 k4) 12 = some k4 := by
  have h1 := readLE32_append [] (le32 k2 ++ le32 k3 ++ le32 k4) k1
  have h2 := readLE32_append (le32 k1) (le32 k3 ++ le32 k4) k2
  have h3 := readLE32_append (le32 k1 ++ le32 k2) (le32 k4) k3
  have h4 := readLE32_append (le32 k1 ++ le32 k2 ++ le32 k3) [] k4
  simp only [List.append_assoc, List.append_nil, List.nil_append, List.length_nil, List.length_append, le32_length,
    Nat.reduceAdd] at h1 h2 h3 h4 ⊢
  exact ⟨h1, h2, h3, h4⟩

/-- R70: a lane takes its at most four tail bytes; where it has none it would mix the word 0, which leaves it. -/
theorem mm3x86TailLane_eq {kmix : U32 → U32} (h0 : kmix 0 = 0) (lo : Nat) (t : List Byte) (h : U32) :
    mm3x86TailLane kmix lo t h = some (h ^^^ kmix (leWord 32 ((t.drop lo).take 4))) := by
  unfold mm3x86TailLane
  split
  case isTrue hlo =>
    have hbytes : (t.drop lo).take (min t.length (lo + 4) - lo) = (t.drop lo).take 4 := by
      rw [List.take_eq_take_iff, List.length_drop]
      omega
    rw [packLE_of_le (by omega) (by omega) (by omega), hbytes, Option.map_some]
  case isFalse hlo =>
    rw [List.drop_eq_nil_of_le (Nat.not_lt.mp hlo), List.take_nil, leWord, h0]
    exact congrArg some BitVec.xor_zero.symm

end Sys2Proof.Machine
end

section
/-! The statements of the MurmurHash3 x86_128 family. -/
namespace Sys2Proof.Machine

/-- Settles O56: the words of the block are read back (`readLE32_four_words`), and each lane rotates as the library does.
The name `mm3x86Block` itself is the model's function. -/
theorem mm3x86Block_holds : Obligations.Mm3x86Block := by
  intro h1 h2 h3 h4 k1 k2 k3 k4
  obtain ⟨r1, r2, r3, r4⟩ := readLE32_four_words k1 k2 k3 k4
  rw [mix, if_pos (by simp [blockSize])]
  simp only [mixer, mm3x86Block, r1, r2, r3, r4, Option.bind_eq_bind, Option.bind_some, Option.pure_def, accs32,
    lane32_setWidth, kmix86Lanes_eq_rotateLeft, mm3x86Lane_eq_rotateLeft, Nat.reduceLT]

/-- Settles O60: each lane takes its tail bytes (`mm3x86TailLane_eq`), and what follows is R71 and R72 as they stand. -/
theorem mm3x86Finalization : Obligations.Mm3x86Finalization := by
  intro h1 h2 h3 h4 len t ht
  have hlast : (t.drop 12).take 4 = t.drop 12 := List.take_of_length_le (by rw [List.length_drop]; omega)
  have e1 := mm3x86TailLane_eq (kmix := kmix86Lane1) (by decide) 0 t h1
  have e2 := mm3x86TailLane_eq (kmix := kmix86Lane2) (by decide) 4 t h2
  have e3 := mm3x86TailLane_eq (kmix := kmix86Lane3) (by decide) 8 t h3
  have e4 := mm3x86TailLane_eq (kmix := kmix86Lane4) (by decide) 12 t h4
  simp only [kmix86Lanes_eq_rotateLeft, List.drop_zero, hlast] at e1 e2 e3 e4
  intro l a1 a2 a3 a4 sa b1 b2 b3 b4 sb
  calc fin .mm3x86 (accs32 h1 h2 h3 h4) len t
      = mm3x86Final (accs32 h1 h2 h3 h4) len t := if_pos ht
    _ = some (le32 sb ++ le32 (b2 + sb) ++ le32 (b3 + sb) ++ le32 (b4 + sb)) := by
        simp only [mm3x86Final, accs32, lane32_setWidth, e1, e2, e3, e4]
        rfl

end Sys2Proof.Machine
end

section
/-! SUPPORT. The MurmurHash3 x64_128 mixer in the words of its rules: its lanes by the library's rotation (R75, R76), the two
words of a block, and the tail of each lane (R77). -/
namespace Sys2Proof.Machine

/-- R75, lane 1. -/
theorem kmix64Lane1_eq_rotateLeft (k : U64) :
    kmix64Lane1 k = (k * 0x87C37B91114253D5).rotateLeft 31 * 0x4CF5AD432745937F := by
  rw [kmix64Lane1, rotl64_eq_rotateLeft _ (by decide), mm3x64C1, mm3x64C2]

/-- R75, lane 2. -/
theorem kmix64Lane2_eq_rotateLeft (k : U64) :
    kmix64Lane2 k = (k * 0x4CF5AD432745937F).rotateLeft 33 * 0x87C37B91114253D5 := by
  rw [kmix64Lane2, rotl64_eq_rotateLeft _ (by decide), mm3x64C1, mm3x64C2]

/-- R76. -/
theorem mm3x64Lane_eq_rotateLeft (h k added const : U64) {r : Nat} (hr : r < 64) :
    mm3x64Lane h k r added const = ((h ^^^ k).rotateLeft r + added) * 5 + const := by
  rw [mm3x64Lane, rotl64_eq_rotateLeft _ hr]

/-- A block of two little-endian words is read back word by word (R58, R98). -/
theorem readLE64_two_words (k1 k2 : U64) :
    readLE64 (le64 k1 ++ le64 k2) 0 = some k1 ∧ readLE64 (le64 k1 ++ le64 k2) 8 = some k2 := by
  have h1 := readLE64_append [] (le64 k2) k1
  have h2 := readLE64_append (le64 k1) [] k2
  simp only [List.append_nil, List.nil_append, List.length_nil, le64_length] at h1 h2
  exact ⟨h1, h2⟩

/-- R77, lane 1: tail bytes 0 to 7; an empty tail would mix the word 0, which leaves the lane. -/
theorem mm3x64TailLane1_eq (t : List Byte) (h : U64) :
    mm3x64TailLane1 t h = some (h ^^^ kmix64Lane1 (leWord 64 (t.take 8))) := by
  unfold mm3x64TailLane1
  split
  case isTrue ht =>
    have hbytes : t.take (min t.length 8) = t.take 8 := List.take_eq_take_iff.mpr (by omega)
    rw [packLE_of_le (by omega) (by omega) (by omega), List.drop_zero, Nat.sub_zero, hbytes, Option.map_some]
  case isFalse ht =>
    rw [List.eq_nil_of_length_eq_zero (Nat.eq_zero_of_not_pos ht), List.take_nil, leWord,
      show kmix64Lane1 0 = 0 by decide]
    exact congrArg some BitVec.xor_zero.symm

/-- R77, lane 2: tail bytes 8 and up; with none it would mix the word 0, which leaves the lane. -/
theorem mm3x64TailLane2_eq {t : List Byte} (ht : t.length < 16) (h : U64) :
    mm3x64TailLane2 t h = some (h ^^^ kmix64Lane2 (leWord 64 (t.drop 8))) := by
  unfold mm3x64TailLane2
  split
  case isTrue h8 =>
    have hbytes : (t.drop 8).take (t.length - 8) = t.drop 8 := List.take_of_length_le List.length_drop.le
    rw [packLE_of_le (by omega) (by omega) (by omega), hbytes, Option.map_some]
  case isFalse h8 =>
    rw [List.drop_eq_nil_of_le (Nat.not_lt.mp h8), leWord, show kmix64Lane2 0 = 0 by decide]
    exact congrArg some BitVec.xor_zero.symm

end Sys2Proof.Machine
end

section
/-! The statements of the MurmurHash3 x64_128 family. -/
namespace Sys2Proof.Machine

/-- Settles O55: the words of the block are read back (`readLE64_two_words`), and each lane rotates as the library does.
The name `mm3x64Block` itself is the model's function. -/
theorem mm3x64Block_holds : Obligations.Mm3x64Block := by
  intro h1 h2 k1 k2
  obtain ⟨r1, r2⟩ := readLE64_two_words k1 k2
  rw [mix, if_pos (by simp [blockSize])]
  simp only [mixer, mm3x64Block, r1, r2, Option.bind_eq_bind, Option.bind_some, Option.pure_def, accs64x2,
    kmix64Lane1_eq_rotateLeft, kmix64Lane2_eq_rotateLeft, mm3x64Lane_eq_rotateLeft, Nat.reduceLT]

/-- Settles O59: each lane takes its tail bytes (`mm3x64TailLane1_eq`, `mm3x64TailLane2_eq`), and what follows is R78 and R79
as they stand. -/
theorem mm3x64Finalization : Obligations.Mm3x64Finalization := by
  intro h1 h2 len t ht a1 a2 b1 b2
  have e1 := mm3x64TailLane1_eq t h1
  have e2 := mm3x64TailLane2_eq ht h2
  rw [kmix64Lane1_eq_rotateLeft] at e1
  rw [kmix64Lane2_eq_rotateLeft] at e2
  calc fin .mm3x64 ⟨h1, h2, 0, 0⟩ len t
      = mm3x64Final ⟨h1, h2, 0, 0⟩ len t := if_pos ht
    _ = some (le64 (b1 + b2) ++ le64 (b2 + (b1 + b2))) := by
        simp only [mm3x64Final, e1, e2]
        rfl

end Sys2Proof.Machine
end

section
/-! SUPPORT. The xxHash32 mixer in the words of its rules: its steps by the library's rotation and with the constants of R80
(R82, R84, R85), the group loop of R85 on a tail of groups and single bytes, and the finalization on such a tail. -/
namespace Sys2Proof.Machine

/-- R82. -/
theorem xxh32Round_eq_rotateLeft (v w : U32) : xxh32Round v w = (v + w * 0x85EBCA77).rotateLeft 13 * 0x9E3779B1 := by
  rw [xxh32Round, rotl32_eq_rotateLeft _ (by decide), xxh32P1, xxh32P2]

/-- R85, one 4-byte group. -/
theorem xxh32Group_eq_rotateLeft (h w : U32) : xxh32Group h w = (h + w * 0xC2B2AE3D).rotateLeft 17 * 0x27D4EB2F := by
  rw [xxh32Group, rotl32_eq_rotateLeft _ (by decide), xxh32P3, xxh32P4]

/-- R85, one single byte. -/
theorem xxh32Byte_eq_rotateLeft (h : U32) (b : Byte) :
    xxh32Byte h b = (h + b.setWidth 32 * 0x165667B1).rotateLeft 11 * 0x9E3779B1 := by
  rw [xxh32Byte, rotl32_eq_rotateLeft _ (by decide), xxh32P1, xxh32P5]

/-- R85, before the tail: both branches read the lanes themselves. -/
theorem xxh32Start_accs32 (v1 v2 v3 v4 : U32) (len : U64) :
    xxh32Start (accs32 v1 v2 v3 v4) len =
      (if 16 ≤ len.toNat then v1.rotateLeft 1 + v2.rotateLeft 7 + v3.rotateLeft 12 + v4.rotateLeft 18
        else v3 + 0x165667B1) + len.setWidth 32 := by
  simp only [xxh32Start, accs32, lane32_setWidth, rotl32_eq_rotateLeft, Nat.reduceLT, xxh32P5]

theorem map_le32_flatten_length (groups : List U32) : (groups.map le32).flatten.length = 4 * groups.length := by
  simp [List.length_flatten, Function.comp_def, Nat.mul_comm]

/-- The group loop of R85, started after `p` with fuel for every group, takes the groups in order and stops before the
bytes that fill no further group. -/
theorem xxh32Groups_append (groups : List U32) {bytes : List Byte} (hb : bytes.length < 4) (p : List Byte) (h : U32)
    {fuel : Nat} (hf : groups.length ≤ fuel) :
    xxh32Groups (p ++ ((groups.map le32).flatten ++ bytes)) fuel p.length h =
      some (groups.foldl xxh32Group h, p.length + 4 * groups.length) := by
  induction groups generalizing p h fuel with
  | nil =>
    cases fuel with
    | zero => rfl
    | succ fuel =>
      have hstop : ¬ p.length + 4 ≤ (p ++ bytes).length := by
        rw [List.length_append]
        omega
      exact if_neg hstop
  | cons w ws ih =>
    cases fuel with
    | zero => exact absurd hf (Nat.not_succ_le_zero ws.length)
    | succ fuel =>
      have hread := readLE32_append p ((ws.map le32).flatten ++ bytes) w
      have hnext := ih (p ++ le32 w) (xxh32Group h w) (Nat.le_of_succ_le_succ hf)
      rw [List.append_assoc, List.length_append, le32_length] at hnext
      rw [List.map_cons, List.flatten_cons, List.append_assoc, xxh32Groups, if_pos (by simp), hread, Option.bind_some,
        hnext, List.foldl_cons, List.length_cons, Nat.mul_add_one, Nat.add_assoc, Nat.add_comm 4]

/-- `xxh32_final` of R85 on a tail of 4-byte groups and then at most three single bytes. -/
theorem xxh32Final_groups_bytes (acc : Accs) (len : U64) (groups : List U32) {bytes : List Byte} (hb : bytes.length < 4) :
    xxh32Final acc len ((groups.map le32).flatten ++ bytes) =
      some (le32 (xxh32Avalanche (bytes.foldl xxh32Byte (groups.foldl xxh32Group (xxh32Start acc len))))) := by
  have hlen := map_le32_flatten_length groups
  have hloop := xxh32Groups_append groups hb [] (xxh32Start acc len)
    (fuel := ((groups.map le32).flatten ++ bytes).length) (by rw [List.length_append]; omega)
  rw [List.nil_append, List.length_nil, Nat.zero_add] at hloop
  simp only [xxh32Final, hloop, Option.bind_eq_bind, Option.bind_some, Option.pure_def, List.drop_left' hlen]

end Sys2Proof.Machine
end

section
/-! The statements of the xxHash32 family. -/
namespace Sys2Proof.Machine

/-- Settles O53: the words of the block are read back (`readLE32_four_words`), and each lane takes its own round. The name
`xxh32Block` itself is the model's function. -/
theorem xxh32Block_holds : Obligations.Xxh32Block := by
  unfold Obligations.Xxh32Block
  intro round v1 v2 v3 v4 w1 w2 w3 w4
  obtain ⟨r1, r2, r3, r4⟩ := readLE32_four_words w1 w2 w3 w4
  rw [mix, if_pos (by simp [blockSize])]
  simp only [mixer, xxh32Block, r1, r2, r3, r4, Option.bind_eq_bind, Option.bind_some, Option.pure_def, accs32,
    lane32_setWidth, xxh32Round_eq_rotateLeft, round]

/-- Settles O57: the group loop takes the groups and leaves the single bytes (`xxh32Final_groups_bytes`), the start and each
step rotate as the library does, and what follows is the avalanche of R84 as it stands. -/
theorem xxh32Finalization : Obligations.Xxh32Finalization := by
  unfold Obligations.Xxh32Finalization
  intro group single v1 v2 v3 v4 len groups bytes hg hb start h a b
  have hgroup : xxh32Group = group := funext₂ xxh32Group_eq_rotateLeft
  have hsingle : xxh32Byte = single := funext₂ xxh32Byte_eq_rotateLeft
  have htail : ((groups.map le32).flatten ++ bytes).length < blockSize .xxh32 := by
    rw [List.length_append, map_le32_flatten_length, blockSize]
    omega
  calc fin .xxh32 (accs32 v1 v2 v3 v4) len ((groups.map le32).flatten ++ bytes)
      = xxh32Final (accs32 v1 v2 v3 v4) len ((groups.map le32).flatten ++ bytes) := if_pos htail
    _ = some (le32 (xxh32Avalanche h)) := by
        rw [xxh32Final_groups_bytes _ _ _ (Nat.lt_succ_of_le hb), xxh32Start_accs32, hgroup, hsingle]
    _ = some (le32 (b ^^^ (b >>> 16))) := rfl

end Sys2Proof.Machine
end

section
/-! SUPPORT. The xxHash64 mixer in the words of its rules: its steps by the library's rotation and with the constants of R86
(R88, R89, R91 to R93, R95), the four words of a block, the group loop and the half step of R95 on a tail of groups and single
bytes, and the finalization on such a tail. -/
namespace Sys2Proof.Machine

/-- R88. -/
theorem xxh64Round_eq_rotateLeft (v w : U64) :
    xxh64Round v w = (v + w * 0xC2B2AE3D27D4EB4F).rotateLeft 31 * 0x9E3779B185EBCA87 := by
  rw [xxh64Round, rotl64_eq_rotateLeft _ (by decide), xxh64P1, xxh64P2]

/-- R91. -/
theorem xxh64Group8_eq_rotateLeft (h w : U64) :
    xxh64Group8 h w = (h ^^^ xxh64Round 0 w).rotateLeft 27 * 0x9E3779B185EBCA87 + 0x85EBCA77C2B2AE63 := by
  rw [xxh64Group8, rotl64_eq_rotateLeft _ (by decide), xxh64P1, xxh64P4]

/-- R92. -/
theorem xxh64Group4_eq_rotateLeft (h : U64) (w : U32) :
    xxh64Group4 h w =
      (h ^^^ (w.setWidth 64 * 0x9E3779B185EBCA87)).rotateLeft 23 * 0xC2B2AE3D27D4EB4F + 0x165667B19E3779F9 := by
  rw [xxh64Group4, rotl64_eq_rotateLeft _ (by decide), xxh64P1, xxh64P2, xxh64P3]

/-- R93. -/
theorem xxh64Byte_eq_rotateLeft (h : U64) (b : Byte) :
    xxh64Byte h b = (h ^^^ (b.setWidth 64 * 0x27D4EB2F165667C5)).rotateLeft 11 * 0x9E3779B185EBCA87 := by
  rw [xxh64Byte, rotl64_eq_rotateLeft _ (by decide), xxh64P1, xxh64P5]

/-- R95, before the tail: the merge rounds take the lanes in order, and the short stream reads lane 3 alone. -/
theorem xxh64Start_eq_rotateLeft (v1 v2 v3 v4 len : U64) :
    xxh64Start ⟨v1, v2, v3, v4⟩ len =
      (if 32 ≤ len.toNat then
        [v1, v2, v3, v4].foldl xxh64Merge (v1.rotateLeft 1 + v2.rotateLeft 7 + v3.rotateLeft 12 + v4.rotateLeft 18)
      else v3 + 0x27D4EB2F165667C5) + len := by
  simp only [xxh64Start, xxh64Converge, rotl64_eq_rotateLeft, Nat.reduceLT, xxh64P5, List.foldl_cons, List.foldl_nil]

/-- A block of four little-endian words is read back word by word (R58, R98). -/
theorem readLE64_four_words (w1 w2 w3 w4 : U64) :
    readLE64 (le64 w1 ++ le64 w2 ++ le64 w3 ++ le64 w4) 0 = some w1 ∧
    readLE64 (le64 w1 ++ le64 w2 ++ le64 w3 ++ le64 w4) 8 = some w2 ∧
    readLE64 (le64 w1 ++ le64 w2 ++ le64 w3 ++ le64 w4) 16 = some w3 ∧
    readLE64 (le64 w1 ++ le64 w2 ++ le64 w3 ++ le64 w4) 24 = some w4 := by
  have h1 := readLE64_append [] (le64 w2 ++ le64 w3 ++ le64 w4) w1
  have h2 := readLE64_append (le64 w1) (le64 w3 ++ le64 w4) w2
  have h3 := readLE64_append (le64 w1 ++ le64 w2) (le64 w4) w3
  have h4 := readLE64_append (le64 w1 ++ le64 w2 ++ le64 w3) [] w4
  simp only [List.append_assoc, List.append_nil, List.nil_append, List.length_nil, List.length_append, le64_length,
    Nat.reduceAdd] at h1 h2 h3 h4 ⊢
  exact ⟨h1, h2, h3, h4⟩

theorem map_le64_flatten_length (groups : List U64) : (groups.map le64).flatten.length = 8 * groups.length := by
  simp [List.length_flatten, Function.comp_def, Nat.mul_comm]

/-- The group loop of R95, started after `p` with fuel for every group, takes the 8-byte groups in order and stops before
the bytes that fill no further one. -/
theorem xxh64Groups_append (groups : List U64) {rest : List Byte} (hr : rest.length < 8) (p : List Byte) (h : U64)
    {fuel : Nat} (hf : groups.length ≤ fuel) :
    xxh64Groups (p ++ ((groups.map le64).flatten ++ rest)) fuel p.length h =
      some (groups.foldl xxh64Group8 h, p.length + (groups.map le64).flatten.length) := by
  induction groups generalizing p h fuel with
  | nil =>
    cases fuel with
    | zero => rfl
    | succ fuel =>
      have hstop : ¬ p.length + 8 ≤ (p ++ rest).length := by
        rw [List.length_append]
        omega
      exact if_neg hstop
  | cons w ws ih =>
    cases fuel with
    | zero => exact absurd hf (Nat.not_succ_le_zero ws.length)
    | succ fuel =>
      have hread := readLE64_append p ((ws.map le64).flatten ++ rest) w
      have hnext := ih (p ++ le64 w) (xxh64Group8 h w) (Nat.le_of_succ_le_succ hf)
      rw [List.append_assoc, List.length_append, le64_length] at hnext
      rw [List.map_cons, List.flatten_cons, List.append_assoc, xxh64Groups, if_pos (by simp), hread, Option.bind_some,
        hnext, List.foldl_cons, List.length_append, le64_length, Nat.add_assoc]

/-- The half step of R95 after `p` takes the 4-byte group that is there, and nothing where only single bytes are left. -/
theorem xxh64Half_append (half : Option U32) {bytes : List Byte} (hb : bytes.length < 4) (p : List Byte) (h : U64) :
    xxh64Half (p ++ ((half.toList.map le32).flatten ++ bytes)) p.length h =
      some (half.toList.foldl xxh64Group4 h, p.length + (half.toList.map le32).flatten.length) := by
  cases half with
  | none =>
    have hnone : ¬ p.length + 4 ≤ (p ++ bytes).length := by
      rw [List.length_append]
      omega
    exact if_neg hnone
  | some w =>
    have hread := readLE32_append p bytes w
    simp [xxh64Half, hread]

/-- `xxh64_final` of R95 on a tail of 8-byte groups, at most one 4-byte group, and then at most three single bytes. -/
theorem xxh64Final_groups_half_bytes (acc : Accs) (len : U64) (groups : List U64) (half : Option U32) {bytes : List Byte}
    (hb : bytes.length < 4) :
    xxh64Final acc len ((groups.map le64).flatten ++ (half.toList.map le32).flatten ++ bytes) =
      some (le64 (xxh64Avalanche
        (bytes.foldl xxh64Byte (half.toList.foldl xxh64Group4 (groups.foldl xxh64Group8 (xxh64Start acc len)))))) := by
  have hrest : ((half.toList.map le32).flatten ++ bytes).length < 8 := by
    cases half <;> simp <;> omega
  have hloop := xxh64Groups_append groups hrest [] (xxh64Start acc len)
    (fuel := ((groups.map le64).flatten ++ ((half.toList.map le32).flatten ++ bytes)).length)
    (by rw [List.length_append, map_le64_flatten_length]; omega)
  have hhalf := xxh64Half_append half hb (groups.map le64).flatten (groups.foldl xxh64Group8 (xxh64Start acc len))
  rw [List.nil_append, List.length_nil, Nat.zero_add, ← List.append_assoc] at hloop
  rw [← List.append_assoc] at hhalf
  simp only [xxh64Final, hloop, hhalf, Option.bind_eq_bind, Option.bind_some, Option.pure_def,
    List.drop_left' List.length_append]

end Sys2Proof.Machine
end

section
/-! The statements of the xxHash64 family. -/
namespace Sys2Proof.Machine

/-- Settles O54: the words of the block are read back (`readLE64_four_words`), and each lane takes its own round. The name
`xxh64Block` itself is the model's function. -/
theorem xxh64Block_holds : Obligations.Xxh64Block := by
  unfold Obligations.Xxh64Block
  intro round v1 v2 v3 v4 w1 w2 w3 w4
  obtain ⟨r1, r2, r3, r4⟩ := readLE64_four_words w1 w2 w3 w4
  rw [mix, if_pos (by simp [blockSize])]
  simp only [mixer, xxh64Block, r1, r2, r3, r4, Option.bind_eq_bind, Option.bind_some, Option.pure_def,
    xxh64Round_eq_rotateLeft, round]

/-- Settles O58: the group loop and the half step take the groups and leave the single bytes
(`xxh64Final_groups_half_bytes`), the start and each step rotate as the library does, and what follows is the avalanche of R94
as it stands. -/
theorem xxh64Finalization : Obligations.Xxh64Finalization := by
  unfold Obligations.Xxh64Finalization
  intro round merge group8 group4 single v1 v2 v3 v4 len groups half bytes hg hb start h a b
  have hround : xxh64Round = round := funext₂ xxh64Round_eq_rotateLeft
  have hmerge : xxh64Merge = merge := funext₂ fun h v => by rw [xxh64Merge, hround, xxh64P1, xxh64P4]
  have hgroup8 : xxh64Group8 = group8 := funext₂ fun h w => by rw [xxh64Group8_eq_rotateLeft, hround]
  have hgroup4 : xxh64Group4 = group4 := funext₂ xxh64Group4_eq_rotateLeft
  have hsingle : xxh64Byte = single := funext₂ xxh64Byte_eq_rotateLeft
  have hstart : xxh64Start ⟨v1, v2, v3, v4⟩ len = start := by
    rw [xxh64Start_eq_rotateLeft, hmerge]
    rfl
  have htail : ((groups.map le64).flatten ++ (half.toList.map le32).flatten ++ bytes).length < blockSize .xxh64 := by
    have hhalf : (half.toList.map le32).flatten.length ≤ 4 := by cases half <;> simp
    rw [List.length_append, List.length_append, map_le64_flatten_length, blockSize]
    omega
  calc fin .xxh64 ⟨v1, v2, v3, v4⟩ len ((groups.map le64).flatten ++ (half.toList.map le32).flatten ++ bytes)
      = xxh64Final ⟨v1, v2, v3, v4⟩ len ((groups.map le64).flatten ++ (half.toList.map le32).flatten ++ bytes) :=
        if_pos htail
    _ = some (le64 (xxh64Avalanche h)) := by
        rw [xxh64Final_groups_half_bytes _ _ _ _ (Nat.lt_succ_of_le hb), hstart, hgroup8, hgroup4, hsingle]
    _ = some (le64 (b ^^^ (b >>> 32))) := rfl

end Sys2Proof.Machine
end

section
/-! SUPPORT. `FINALIZE` path by path (R102, R103, R114), the state straight after a soft reset (R101), and the digest as a
function of the running computation it starts from (R104). -/
namespace Sys2Proof.Machine

/-- The words of `CFG` (R48), as `0x00000001 | (ALGF << 4)`. -/
theorem decode_cfgWord (a : Alg) : decode (0x00000001#32 ||| (a.code.setWidth 32 <<< 4)) = .command (.cfg a.code) := by
  cases a <;> decide

/-- The tail is shorter than a block exactly where R25 holds, although `PBUF` cuts it at 32 bytes. -/
theorem pending_length_lt_iff (s : State) : s.pending.length < blockSize s.alg ↔ s.pcount.toNat < blockSize s.alg := by
  have hbs := blockSize_le s.alg
  rw [State.pending, List.length_take, Vector.length_toList]
  omega

theorem execFinalize_of_locked {s : State} (he : s.err ≠ none) : exec .finalize s = .next s := by
  simp [exec, execFinalize, (locked_iff s).mpr he]

theorem execFinalize_of_final {s : State} (hf : s.final = true) : exec .finalize s = .next s := by
  simp [exec, execFinalize, hf]

section
variable {s : State} (he : s.err = none) (hf : s.final = false)
include he hf

theorem execFinalize_of_lt (hp : s.pcount.toNat < blockSize s.alg) :
    ∃ d, fin s.alg s.acc s.totalLen s.pending = some d ∧ d.length = digestLength s.alg ∧
      exec .finalize s = .next { s with digest := digestFile d, final := true } := by
  obtain ⟨d, hd, hlen⟩ := fin_eq_some_of_lt s.acc s.totalLen ((pending_length_lt_iff s).mpr hp)
  exact ⟨d, hd, hlen, by simp [exec, execFinalize, (locked_eq_false_iff s).mpr he, hf, hd]⟩

theorem execFinalize_of_le (hp : blockSize s.alg ≤ s.pcount.toNat) : exec .finalize s = .fault .contract := by
  have hpending : blockSize s.alg ≤ s.pending.length := by
    rwa [← Nat.not_lt, pending_length_lt_iff, Nat.not_lt]
  simp [exec, execFinalize, (locked_eq_false_iff s).mpr he, hf, fin_eq_none_of_le s.acc s.totalLen hpending]

end

/-- A soft reset has nothing left to do straight after `RESET` or `CFG` (R101). -/
theorem JustReset.softReset_eq {r : State} (h : JustReset r) : r.softReset = r := by
  obtain ⟨s, i, rfl | ⟨a, rfl⟩, h⟩ := h
  · cases h
    rfl
  · cases (exec_cfg_code a s).symm.trans h
    rfl

theorem JustReset.err {r : State} (h : JustReset r) : r.err = none := by rw [← h.softReset_eq, State.softReset_err]

theorem JustReset.final {r : State} (h : JustReset r) : r.final = false := by rw [← h.softReset_eq, State.softReset_final]

/-- The running computation after a soft reset: `INIT` of the algorithm and the seed, and no byte taken (R101). -/
theorem softReset_computation (s : State) :
    s.softReset.computation = ⟨s.alg, initAccs s.alg s.aseed, 0, 0, [], false, none⟩ := rfl

/-- Straight after `RESET` or `CFG` the running computation is a function of `ALG` and the seed part of R21. -/
theorem JustReset.computation_eq {r r' : State} (h : JustReset r) (h' : JustReset r') (halg : r.alg = r'.alg)
    (hseed : seedPart r.alg r.aseed = seedPart r'.alg r'.aseed) : r.computation = r'.computation := by
  rw [← halg] at hseed
  rw [← h.softReset_eq, ← h'.softReset_eq, softReset_computation, softReset_computation, ← halg,
    initAccs_eq_of_seedPart hseed]

/-- The digest of a run is a function of the running computation it starts from and of the stream. -/
theorem Hashes.digest_eq {s s' : State} {chunks chunks' : List (List Byte)} {d d' : Vector Byte 16}
    (hs : s.computation = s'.computation) (he : s.err = none) (hf : s.final = false)
    (hstream : chunks.flatten = chunks'.flatten) (h : Hashes s chunks d) (h' : Hashes s' chunks' d') : d = d' := by
  obtain ⟨t, u, hfed, hfin, rfl⟩ := h
  obtain ⟨t', u', hfed', hfin', rfl⟩ := h'
  obtain ⟨herr, hfinal⟩ := hfed.keeps
  exact digest_eq_of_computation_eq (hfed.computation_eq hs hstream hfed') (herr.trans he) (hfinal.trans hf) hfin hfin'

end Sys2Proof.Machine
end

section
/-! The statements of the command family. -/
namespace Sys2Proof.Machine

/-- Settles O6, path by path; the digest store is the digest and the zero bytes after it (`digestFile_toList`). -/
theorem finalizeStoresThePaddedDigest : Obligations.FinalizeStoresThePaddedDigest := by
  refine fun s => ⟨issue_of_command (by decide) s, execFinalize_of_locked, execFinalize_of_final,
    fun he hf hp => ?stores, execFinalize_of_le⟩
  case stores =>
    obtain ⟨d, hd, hlen, e⟩ := execFinalize_of_lt he hf hp
    have hpadded : (digestFile d).toList = d ++ List.replicate (16 - digestLength s.alg) 0 := by
      rw [digestFile_toList (hlen.trans_le (digestLength_le s.alg)), hlen]
    exact ⟨d, digestFile d, hd, hlen, hpadded, e⟩

/-- Settles O16: both runs start from the same running computation (`JustReset.computation_eq`), and the digest is a function
of it and of the stream (`Hashes.digest_eq`). -/
theorem digestIsAFunctionOfSeedAndStream : Obligations.DigestIsAFunctionOfSeedAndStream := by
  intro r1 r2 cs1 cs2 d1 d2 hr1 hr2 halg hseed hstream h1 h2
  exact h1.digest_eq (hr1.computation_eq hr2 halg hseed) hr1.err hr1.final hstream h2

/-- Settles O17: the two soft resets compute `INIT` from the same algorithm and seed. -/
theorem resetEquivalence : Obligations.ResetEquivalence := by
  intro s1 s2 r1 r2 h1 h2 hseed
  cases h1
  cases (exec_cfg_code s1.alg s2).symm.trans h2
  have haseed : s1.aseed = s2.seedArg := hseed.symm
  have hsame : SameRun s1.softReset ({ s2 with alg := s1.alg, aseed := s2.seedArg } : State).softReset :=
    ⟨rfl, congrArg (initAccs s1.alg) haseed, rfl, rfl, rfl, rfl, rfl⟩
  exact ⟨hsame, haseed, rfl, fun cs1 cs2 d1 d2 hstream hd1 hd2 => hd1.digest_eq hsame.computation rfl rfl hstream hd2⟩

/-- Settles O51: the bytes as `leBytes` lists them, and the read of a word with nothing before or after it. -/
theorem digestWordsAreLittleEndian : Obligations.DigestWordsAreLittleEndian := by
  refine ⟨fun x => ⟨rfl, ?read32⟩, fun x => ⟨le64_length x, fun k hk => leBytes_getD x hk, ?read64⟩⟩
  case read32 => simpa using readLE32_append [] [] x
  case read64 => simpa using readLE64_append [] [] x

/-- Settles O1: the word is `NOP`'s own (R48), and `NOP` answers its state. -/
theorem nopChangesNothing : Obligations.NopChangesNothing :=
  fun s => ⟨exec_nop s, (issue_of_command (i := .nop) (by decide) s).trans (exec_nop s)⟩

/-- Settles O2: the soft reset is the one the statement writes out, and it has nothing to do after another. -/
theorem resetRestoresPostConstruction : Obligations.ResetRestoresPostConstruction :=
  fun s => ⟨exec_reset s, issue_of_command (by decide) s, fun h => congrArg Host.Outcome.next h.softReset_eq⟩

/-- Settles O3: `CFG` is two writes and a soft reset, and the writes change nothing where both values are the old ones. -/
theorem cfgLatchesAndRestarts : Obligations.CfgLatchesAndRestarts := by
  refine fun a s => ⟨exec_cfg_code a s, issue_of_command (decode_cfgWord a) s, ?same⟩
  case same =>
    rintro rfl hseed
    have hseedArg : s.seedArg = s.aseed := hseed.symm
    rw [exec_cfg_code, exec_reset, hseedArg]

/-- Settles O7: the word is `FINALIZE`'s own (R48), and `FINALIZE` with `FINAL = 1` answers its state, locked or not. -/
theorem secondFinalizeChangesNothing : Obligations.SecondFinalizeChangesNothing := by
  intro s hf
  have h : exec .finalize s = .next s := execFinalize_of_final hf
  exact ⟨h, (issue_of_command (i := .finalize) (by decide) s).trans h⟩

end Sys2Proof.Machine
end

section
/-! SUPPORT. What a locked block drops (R114), an illegal word locked and unlocked (R111), and which steps touch the model's
fault record (R115). -/
namespace Sys2Proof.Machine

theorem raiseIllegal_of_locked {s : State} (he : s.err ≠ none) (w : U32) : s.raiseIllegal w = s := by
  rw [State.raiseIllegal, if_pos ((locked_iff s).mpr he)]

theorem raiseIllegal_of_unlocked {s : State} (he : s.err = none) (w : U32) : s.raiseIllegal w = s.raise .illegal w := by
  rw [State.raiseIllegal, if_neg (by simp [locked_iff, he])]

/-- While locked, the commands other than `CFG` and `RESET` are dropped (R107, R114). -/
theorem exec_of_locked {i : Instr} {s : State} (he : s.err ≠ none) (hcfg : ∀ c, i ≠ .cfg c) (hreset : i ≠ .reset) :
    exec i s = .next s := by
  cases i with
  | nop => rfl
  | cfg c => exact absurd rfl (hcfg c)
  | reset => exact absurd rfl hreset
  | update => exact execUpdate_of_locked he
  | finalize => exact execFinalize_of_locked he

/-- The lock as the first test of R107, for a command that it stops. -/
theorem exec_eq_ite {i : Instr} (hcfg : ∀ c, i ≠ .cfg c) (hreset : i ≠ .reset) (s : State) :
    exec i s = if s.err ≠ none then .next s else exec i s := by
  split_ifs with he
  · exact exec_of_locked he hcfg hreset
  · rfl

/-- The lock as the first test of R107, for an illegal word. -/
theorem next_raiseIllegal_eq_ite (s : State) (w : U32) :
    (.next (s.raiseIllegal w) : Host.Outcome State Fault Refusal) =
      if s.err ≠ none then .next s else .next (s.raise .illegal w) := by
  split_ifs with he
  · rw [raiseIllegal_of_locked he]
  · rw [raiseIllegal_of_unlocked (not_not.mp he)]

/-- While locked, every word but those of `CFG` and `RESET` is dropped (R107, R114). -/
theorem issue_of_locked {w : U32} {s : State} (he : s.err ≠ none) (hcfg : ∀ c, decode w ≠ .command (.cfg c))
    (hreset : decode w ≠ .command .reset) : issue w s = .next s := by
  obtain ⟨i, hi, e⟩ | ⟨-, e⟩ := issue_cases w s
  · rw [e]
    exact exec_of_locked he (fun c hc => hcfg c (hc ▸ hi)) (fun hr => hreset (hr ▸ hi))
  · rw [e, raiseIllegal_of_locked he]

/-- A reserved code makes `CFG`'s word illegal (R50). -/
theorem decode_encode_reserved {c : BitVec 3} (h : 4 ≤ c.toNat) : decode (encode (.cfg c)) = .illegal := by
  revert c
  decide

theorem word_eq_of_decode_update {w : U32} (h : decode w = .command .update) : w = 0x00000003 :=
  (decode_eq_command_iff.mp h).2

/-- An `UPDATE` whose checks pass records no fault (R109). -/
theorem execUpdate_keeps_err {s t : State} (he : s.err = none) (hf : s.final = false)
    (hin : s.argAddr.toNat + s.argLen.toNat ≤ s.params.dinSize) (h : exec .update s = .next t) : t.err = none := by
  obtain ⟨hlocked, -⟩ | ⟨-, hfinal, -⟩ | ⟨-, -, hout, -⟩ | ⟨-, -, -, -, e⟩ | ⟨b, -, -, e⟩ | ⟨b, t', -, -, e, ha⟩ :=
    execUpdate_cases s
  · exact absurd he hlocked
  · simp [hf] at hfinal
  · omega
  · cases e.symm.trans h
  · split at e
    · cases e.symm.trans h
      exact he
    · cases e.symm.trans h
  · cases e.symm.trans h
    exact ha.err.trans he

theorem HostSide.faultRecord {s t : State} (ht : HostSide s t) : t.faultRecord = s.faultRecord := by rw [ht.frame]

theorem Absorbed.faultRecord {s t : State} {b : List Byte} (ha : Absorbed s b t) : t.faultRecord = s.faultRecord := by
  rw [ha.frame]

/-- A register other than `STATUS` and `ERR_CMD` does not show the fault (R12, R18). -/
theorem readReg_withoutFault {r : Reg} (hstatus : r ≠ .status) (herrCmd : r ≠ .errCmd) (s : State) :
    ({ s with err := none, errCmd := 0 } : State).readReg r = s.readReg r := by
  cases r with
  | status => exact absurd rfl hstatus
  | errCmd => exact absurd rfl herrCmd
  | _ => rfl

/-- A register write neither sees nor changes the fault (R11). -/
theorem writeReg_withoutFault (s : State) (r : Reg) (v : U32) :
    s.writeReg r v = { ({ s with err := none, errCmd := 0 } : State).writeReg r v with
      err := s.err, errCmd := s.errCmd } := by
  cases r <;> rfl

end Sys2Proof.Machine
end

section
/-! SUPPORT. The blocks of a platform: what an action on one of them does, and which of them decodes an address (R119). -/
namespace Sys2Proof.Machine

/-- Once what an action on block `k` can answer. -/
theorem act_eq_next_iff {m m' : Platform} {k : Nat} {e : PortEvent} :
    m.act k e = .next m' ↔
      ∃ s s', m.blocks[k]? = some s ∧ portEvent e s = .next s' ∧ m' = { blocks := m.blocks.set k s' } := by
  unfold Platform.act
  cases m.blocks[k]? with
  | none => simp
  | some s => cases hs : portEvent e s <;> simp [hs, eq_comm]

theorem not_decodes_of_disjoint {p q : Config.Params} {addr : Nat} (h : disjoint p q) (hp : decodes p addr = true)
    (hq : decodes q addr = true) : False := by
  have harea : Config.registerArea = 0x100 := rfl
  rw [decodes_iff] at hp hq
  unfold disjoint at h
  omega

section
variable {m : Platform} (hm : m.wf) {addr : Nat}
include hm

theorem Platform.wf.disjoint_of_lt {j k : Nat} {s t : State} (hjk : j < k) (hs : m.blocks[j]? = some s)
    (ht : m.blocks[k]? = some t) : disjoint s.params t.params := by
  obtain ⟨hj, rfl⟩ := List.getElem?_eq_some_iff.mp hs
  obtain ⟨hk, rfl⟩ := List.getElem?_eq_some_iff.mp ht
  obtain ⟨-, -, hpairwise⟩ := hm
  exact List.pairwise_iff_getElem.mp hpairwise j k hj hk hjk

/-- At most one block decodes an address. -/
theorem Platform.wf.decodes_unique {j k : Nat} {s t : State} (hs : m.blocks[j]? = some s) (ht : m.blocks[k]? = some t)
    (hds : decodes s.params addr = true) (hdt : decodes t.params addr = true) : j = k := by
  obtain hlt | heq | hgt := Nat.lt_trichotomy j k
  · exact (not_decodes_of_disjoint (hm.disjoint_of_lt hlt hs ht) hds hdt).elim
  · exact heq
  · exact (not_decodes_of_disjoint (hm.disjoint_of_lt hgt ht hs) hdt hds).elim

theorem Platform.wf.owner_eq {k : Nat} {s : State} (hs : m.blocks[k]? = some s) (hd : decodes s.params addr = true) :
    m.owner addr = some k := by
  obtain ⟨hk, rfl⟩ := List.getElem?_eq_some_iff.mp hs
  refine List.findIdx?_eq_some_iff_getElem.mpr ⟨hk, hd, fun j hjk hdj => ?_⟩
  exact hjk.ne (hm.decodes_unique (List.getElem?_eq_getElem (hjk.trans hk)) hs hdj hd)

end

end Sys2Proof.Machine
end

section
/-! The statements of the exception, reset and hazard families. -/
namespace Sys2Proof.Machine

/-- Settles O9: out of range `UPDATE` raises (`execUpdate_of_outOfRange`), in range it records nothing
(`execUpdate_keeps_err`). -/
theorem boundsFaultExactlyOutOfRange : Obligations.BoundsFaultExactlyOutOfRange := by
  intro s he hf
  have hraise := execUpdate_of_outOfRange he hf
  refine ⟨⟨fun ⟨t, h, ht⟩ => ?_, fun hout => ⟨_, hraise hout, rfl⟩⟩, hraise⟩
  by_contra hin
  simp [execUpdate_keeps_err he hf (Nat.not_lt.mp hin) h] at ht

/-- Settles O10: the lock, then the decoder's verdict, then the two checks of `UPDATE`, whose word is its own. -/
theorem faultPriorityOrder : Obligations.FaultPriorityOrder := by
  refine fun w s => ⟨issue_of_locked, fun he hd => ?illegal, fun he hd hf => ?misuse, fun he hd hf hout => ?bounds⟩
  case illegal =>
    rw [issue_of_illegal hd, raiseIllegal_of_unlocked he]
    rfl
  case misuse =>
    obtain rfl := word_eq_of_decode_update hd
    exact (issue_of_command hd s).trans (execUpdate_of_final he hf)
  case bounds =>
    obtain rfl := word_eq_of_decode_update hd
    exact (issue_of_command hd s).trans (execUpdate_of_outOfRange he hf hout)

/-- Settles O11: of all a command can do, only a raise leaves a fault where none was, and it records the command's own word. -/
theorem faultsArePrecise : Obligations.FaultsArePrecise := by
  intro w s t f he h hf
  obtain ⟨i, hi, e⟩ | ⟨-, e⟩ := issue_cases w s
  case inl =>
    obtain ⟨-, rfl⟩ := decode_eq_command_iff.mp hi
    obtain rfl | ⟨-, f', rfl, -⟩ | ⟨a, seed, rfl, -⟩ | ⟨-, b, -, -, ha⟩ | ⟨-, -, -, d, -, -, rfl⟩ :=
      exec_next_cases (e.symm.trans h)
    · cases he.symm.trans hf
    · cases hf
      rfl
    · cases hf
    · cases (ha.err.trans he).symm.trans hf
    · cases he.symm.trans hf
  case inr =>
    rw [raiseIllegal_of_unlocked he] at e
    cases e.symm.trans h
    cases hf
    rfl

/-- Settles O12: a soft reset overwrites the fault, and nothing else that works while locked reads it. -/
theorem lockedBlockDropsCommands : Obligations.LockedBlockDropsCommands := by
  refine fun s he => ⟨exec_nop s, execUpdate_of_locked he, execFinalize_of_locked he, fun w hw => ?illegal,
    ⟨_, exec_reset s, rfl, rfl, exec_reset _⟩, fun a => ⟨_, exec_cfg_code a s, rfl, rfl, exec_cfg_code a _⟩,
    writeReg_withoutFault s, fun r hstatus herrCmd => (readReg_withoutFault hstatus herrCmd s).symm,
    fun a n v hr hn hin => portEvent_writeWindow hr hn hin v, fun a n bs hr hn hin => portEvent_readWindow hr hn hin⟩
  case illegal => rw [issue_of_illegal hw, raiseIllegal_of_locked he]

/-- Settles O24: `CFG` and `RESET` run by the decoder's verdict alone; for the others the lock comes first
(`exec_eq_ite`, `next_raiseIllegal_eq_ite`). -/
theorem issueFollowsItsOrder : Obligations.IssueFollowsItsOrder := by
  intro w s
  cases hd : decode w with
  | illegal =>
    rw [issue_of_illegal hd]
    exact next_raiseIllegal_eq_ite s w
  | command i =>
    rw [issue_of_command hd]
    cases i with
    | nop => exact exec_eq_ite (i := .nop) nofun nofun s
    | cfg c => rfl
    | reset => rfl
    | update => exact exec_eq_ite (i := .update) nofun nofun s
    | finalize => exact exec_eq_ite (i := .finalize) nofun nofun s

/-- Settles O40: of the effects of a step only a raise writes the record, and it sets it; no other effect puts a fault into
`ERR`. -/
theorem faultRecordIsNeverCleared : Obligations.FaultRecordIsNeverCleared := by
  intro s t hstep
  cases step_effect hstep with
  | host ht => exact ⟨ht.faultRecord.trans, fun _ hne => absurd ht.err hne⟩
  | raised f w _ _ => exact ⟨fun _ => rfl, fun _ _ => rfl⟩
  | restarted a seed _ => exact ⟨id, fun hne _ => absurd rfl hne⟩
  | absorbed b _ _ ha => exact ⟨ha.faultRecord.trans, fun _ hne => absurd ha.err hne⟩
  | digested d _ _ _ => exact ⟨id, fun _ hne => absurd rfl hne⟩
  | hardReset _ => exact ⟨id, fun hne _ => absurd rfl hne⟩

/-- Settles O46: an action replaces one entry of the list of blocks, and disjoint blocks decode no common address. -/
theorem instancesShareNothing : Obligations.InstancesShareNothing := by
  refine ⟨fun m m' k e h => ?others, fun m k e s s' hs hport => ⟨_, act_eq_next_iff.mpr ⟨s, s', hs, hport, rfl⟩⟩,
    fun m j k s t addr hm hs ht => hm.decodes_unique hs ht, fun m k s addr e hm hs hd => ?access⟩
  case others =>
    obtain ⟨s, s', hs, hport, rfl⟩ := act_eq_next_iff.mp h
    have hk : k < m.blocks.length := (List.getElem?_eq_some_iff.mp hs).1
    exact ⟨fun j hj => List.getElem?_set_ne hj.symm, s, s', hs, hport, List.getElem?_set_self hk⟩
  case access => rw [Platform.access, hm.owner_eq hs hd]

/-- Settles O8: `FINAL` is checked before the range, and every soft reset clears `FINAL` and `ERR`. -/
theorem updateAfterFinalizeIsMisuse : Obligations.UpdateAfterFinalizeIsMisuse := by
  refine fun s he hf => ⟨execUpdate_of_final he hf, execFinalize_of_final hf, fun t h => ?reset, fun a t h => ?cfg⟩
  case reset =>
    have hr : JustReset t := ⟨s, .reset, .inl rfl, h⟩
    exact ⟨hr.final, hr.err⟩
  case cfg =>
    have hr : JustReset t := ⟨s, _, .inr ⟨a, rfl⟩, h⟩
    exact ⟨hr.final, hr.err⟩

/-- Settles O39: the two actions are their definitions, and a transaction asks for the reset signal first. -/
theorem hardwareResetSignal : Obligations.HardwareResetSignal :=
  fun _ => ⟨rfl, rfl, fun hr _ _ => ⟨if_pos hr, fun _ => if_pos hr⟩⟩

/-- Settles O4: the word of a reserved code is illegal, so both sides are the same raise (`exec_cfg_reserved`). -/
theorem cfgReservedCodeActsAsIllegalWord : Obligations.CfgReservedCodeActsAsIllegalWord := by
  intro c s hc
  have hexec := exec_cfg_reserved hc s
  refine ⟨?word, fun he => ?locked, fun he => ?unlocked⟩
  case word => rw [hexec, issue_of_illegal (decode_encode_reserved hc)]
  case locked => rw [hexec, raiseIllegal_of_locked he]
  case unlocked =>
    rw [hexec, raiseIllegal_of_unlocked he]
    rfl

/-- Settles O22, word by word. -/
theorem specWordsDecode : Obligations.SpecWordsDecode := by
  unfold Obligations.SpecWordsDecode
  decide

end Sys2Proof.Machine
end
